-- ==== Sys2Proof/Word.lean ====
section
/-! DEFINITION. The word types: bytes and 16-bit words (spec/00_scope.md section 6.1). -/

namespace Sys2Proof

/-- A byte: one memory cell, one 8-bit register, one opcode (R20, R50, R70). -/
abbrev Byte := BitVec 8

/-- A 16-bit word: SP, PC, a register pair, an address, an imm16 (R21, R22, R50). -/
abbrev Word := BitVec 16

end Sys2Proof
end

