-- ==== Sys2Proof/Config.lean ====
section
/-! DEFINITION. What the integrator fixes. The spec leaves no value of the core open
(end of spec/92_eei_decisions.md), so there is no free value here. -/

namespace Sys2Proof.Config

/-- `ADDRESS_SPACE_SIZE` (R2, R50; decision D9; log 16). -/
def addressSpaceSize : Nat := 65536

/-- What an address that memory does not list reads as: the model's `MEM_INIT` (R53, D10).
DESIGN CHOICE, unsafe, log 1: the spec gives memory no content at reset (R242). -/
def unlistedByte : Byte := 0x00

end Sys2Proof.Config
end

