-- ==== Sys2Proof/Syntax.lean ====
section
/-! DEFINITION. The instructions: operand selectors, and one constructor of `Instr` for each of
the 38 rows of spec/opcode_table.json (spec/30_encoding.md R73 to R76 and R82). -/

namespace Sys2Proof

/-- The seven 8-bit cells (R20). The flags are not among them (R29). -/
inductive R8 where
  | b | c | d | e | h | l | a
deriving DecidableEq, Repr

/-- The `register8` selector: a cell, or the sentinel IndirectHL, the memory byte at address HL
(R73, R87). The sentinel is a case of its own and never a cell. -/
inductive Operand8 where
  | reg (r : R8)
  | indirectHL
deriving DecidableEq, Repr

/-- The 16-bit operand of `r16sel` (R74). -/
inductive R16 where
  | bc | de | hl | sp
deriving DecidableEq, Repr

/-- The pair-indirect operand of `r16mem` (R75): BC, DE, HL with post-increment, HL with
post-decrement. -/
inductive R16Mem where
  | bc | de | hlInc | hlDec
deriving DecidableEq, Repr

/-- The 16-bit operand of `r16stk` (R76). No instruction uses it. -/
inductive R16Stk where
  | bc | de | hl | af
deriving DecidableEq, Repr

/-- The Register16 selector of the Register File's accessors (R30, R31; spec/90_conflicts.md C11). -/
inductive Reg16 where
  | af | bc | de | hl | sp | pc
deriving DecidableEq, Repr

/-- One constructor per row of the opcode map (R82). A destination stands first. -/
inductive Instr where
  /-- NOP (R130). `p` is decoded and ignored: 0x00, 0x10, 0x20, 0x30 (D4, log 7). -/
  | nop (p : BitVec 2)
  /-- LD r16,imm16 (R131). -/
  | ldR16Imm16 (dst : R16) (nn : Word)
  /-- LD [r16mem],A (R132). -/
  | ldR16memA (m : R16Mem)
  /-- LD A,[r16mem] (R133). -/
  | ldAR16mem (m : R16Mem)
  /-- LD [imm16],SP (R134). -/
  | ldImm16SP (nn : Word)
  /-- INC r16 (R135). -/
  | incR16 (dst : R16)
  /-- DEC r16 (R136). -/
  | decR16 (dst : R16)
  /-- ADD HL,r16 (R137). -/
  | addHLR16 (w : R16)
  /-- INC r8 (R150). -/
  | incR8 (r : R8)
  /-- INC [HL] (R151). -/
  | incHL
  /-- DEC r8 (R152). -/
  | decR8 (r : R8)
  /-- DEC [HL] (R153). -/
  | decHL
  /-- LD r8,imm8 (R154). -/
  | ldR8Imm8 (dst : R8) (n : Byte)
  /-- LD [HL],imm8 (R155). -/
  | ldHLImm8 (n : Byte)
  /-- RLCA (R156). -/
  | rlca
  /-- RRCA (R157). -/
  | rrca
  /-- RLA (R158). -/
  | rla
  /-- RRA (R159). -/
  | rra
  /-- The uncovered block-0 opcode 0x18 (R201). -/
  | unimplemented18
  /-- The uncovered block-0 opcode 0x27 (R201). -/
  | unimplemented27
  /-- The uncovered block-0 opcode 0x28 (R201). -/
  | unimplemented28
  /-- The uncovered block-0 opcode 0x2F (R201). -/
  | unimplemented2F
  /-- The uncovered block-0 opcode 0x37 (R201). -/
  | unimplemented37
  /-- The uncovered block-0 opcode 0x38 (R201). -/
  | unimplemented38
  /-- The uncovered block-0 opcode 0x3F (R201). -/
  | unimplemented3F
  /-- LD r8,r8 (R170). -/
  | ldR8R8 (dst src : R8)
  /-- LD r8,[HL] (R171). -/
  | ldR8HL (dst : R8)
  /-- LD [HL],r8 (R172). -/
  | ldHLR8 (src : R8)
  /-- The reserved HALT encoding 0x76 (R173). -/
  | reservedHalt
  /-- ADD A,operand (R181). -/
  | addA (o : Operand8)
  /-- ADC A,operand (R182). -/
  | adcA (o : Operand8)
  /-- SUB A,operand (R183). -/
  | subA (o : Operand8)
  /-- SBC A,operand (R184). -/
  | sbcA (o : Operand8)
  /-- AND A,operand (R185). -/
  | andA (o : Operand8)
  /-- XOR A,operand (R186). -/
  | xorA (o : Operand8)
  /-- OR A,operand (R187). -/
  | orA (o : Operand8)
  /-- CP A,operand (R188). -/
  | cpA (o : Operand8)
  /-- A block-3 opcode, 0xC0 to 0xFF (R200), kept whole because the condition carries it.
  Well formed only when its field x is 3. -/
  | block3 (opcode : Byte)
deriving DecidableEq, Repr

end Sys2Proof
end

