-- ==== Sys2Proof/Machine/State.lean ====
section
/-! DEFINITION. The state of the machine, the reasons a step can stop, and the state after reset
(spec/10_state.md; spec/20_memory.md R53; spec/60_exceptions.md R210). -/

namespace Sys2Proof.Machine

/-- The four flag flip-flops (R24), and any 4-flag vector such as a mask (R33). -/
structure Flags where
  /-- Zero. -/
  z : Bool
  /-- Subtract. -/
  n : Bool
  /-- HalfCarry. -/
  h : Bool
  /-- Carry. -/
  c : Bool
deriving DecidableEq, Repr

/-- The collaborator's bytes in the closed form of R53: address and byte pairs, addresses strictly
rising, none equal to `Config.unlistedByte`. -/
abbrev Memory := List Host.Cell

/-- One transaction on the MEM port (R3): the address and the byte that was read or written. -/
inductive Transaction where
  | read (addr : Word) (byte : Byte)
  | write (addr : Word) (byte : Byte)
deriving DecidableEq, Repr

/-- The Register File (R20, R22, R24), which is all the state the core has (R26, R27), and what
stands behind its MEM port (R53). -/
structure State where
  /-- The accumulator (R20). -/
  a : Byte
  /-- High half of BC (R20, R21). -/
  b : Byte
  /-- Low half of BC (R20, R21). -/
  c : Byte
  /-- High half of DE (R20, R21). -/
  d : Byte
  /-- Low half of DE (R20, R21). -/
  e : Byte
  /-- High half of HL (R20, R21). -/
  h : Byte
  /-- Low half of HL (R20, R21). -/
  l : Byte
  /-- The flags (R24). -/
  flags : Flags
  /-- Stack pointer (R22). -/
  sp : Word
  /-- Program counter (R22, R23). -/
  pc : Word
  /-- The collaborator's byte array, the closed form of R53. -/
  mem : Memory
  /-- The collaborator as a read oracle, the open form of R53: what the next reads answer, in
  order. When it is empty the array answers. The model's own field (log 2). -/
  answers : List Byte
  /-- The transactions the core has made on the MEM port, oldest first (R53, R57). The model's own
  field: no meaning reads it (log 3). -/
  bus : List Transaction
deriving DecidableEq, Repr

/-- Why a step stops. The core has one error condition and no other (R210, R211). -/
inductive Fault where
  /-- `Fault(opcode, pc)` (R210): the fetched opcode selects no instruction. Raised by the meanings
  of the 72 opcodes of R211 and by nothing else. Safe: it is the outcome the spec gives, and a
  fault ends the run (R126). The condition itself is `opcode` and `pc` (R213); `after` is the state
  the failed step leaves, in which it has made its one transaction (R57, R125; log 8). -/
  | unimplemented (opcode : Byte) (pc : Word) (after : State)
deriving DecidableEq, Repr

/-- Why an instruction has no meaning in the model. -/
inductive Refusal where
  /-- The instruction's arm of `exec` has no meaning yet. Raised by no arm at present. Safe: the
  machine only stops. -/
  | notModelled (mnemonic : String)
deriving DecidableEq, Repr

/-- What one step answers. -/
abbrev Result := Host.Outcome State Fault Refusal

/-- The machine right after construction, its only reset: every cell of the Register File is zero
(R38, R240), memory lists nothing (log 1), the oracle is silent (log 2), and no transaction has
been made (R242). -/
def State.reset : State where
  a := 0x00
  b := 0x00
  c := 0x00
  d := 0x00
  e := 0x00
  h := 0x00
  l := 0x00
  flags := { z := false, n := false, h := false, c := false }
  sp := 0x0000
  pc := 0x0000
  mem := []
  answers := []
  bus := []

end Sys2Proof.Machine
end

