-- ==== Sys2Proof/Machine/Flags.lean ====
section
/-! DEFINITION. The masked commit of flags, the masks the instructions use, and the ALU: nine pure
functions that give a result byte and four flags, and the compositions of them
(spec/10_state.md R33, R37; spec/40_alu.md). -/

namespace Sys2Proof.Machine

/-! ## The masked commit (R33) -/

/-- One flag of a commit: the new value under the mask, else the old one. -/
def commitFlag (mask new old : Bool) : Bool := if mask then new else old

/-- `set_flags(new_flags, mask)` on a flag vector (R33). -/
def Flags.commit (old new mask : Flags) : Flags :=
  { z := commitFlag mask.z new.z old.z
    n := commitFlag mask.n new.n old.n
    h := commitFlag mask.h new.h old.h
    c := commitFlag mask.c new.c old.c }

/-- `SetFlags(new, mask)` (R33). -/
def State.setFlags (s : State) (new mask : Flags) : State :=
  { s with flags := s.flags.commit new mask }

/-- The mask of all four flags (R156 to R159, R180). -/
def Flags.all : Flags := { z := true, n := true, h := true, c := true }

/-- The mask of Zero, Subtract and HalfCarry, which keeps Carry (R150 to R153). -/
def Flags.butCarry : Flags := { z := true, n := true, h := true, c := false }

/-- The mask of Subtract, HalfCarry and Carry, which keeps Zero (R137). -/
def Flags.butZero : Flags := { z := false, n := true, h := true, c := true }

/-! ## The ALU (R109) -/

/-- What an ALU function returns: a result byte and the four flags. -/
structure AluResult where
  result : Byte
  flags : Flags
deriving DecidableEq, Repr

/-- `AddC(a, b, cin)` (R100). -/
def addC (a b : Byte) (cin : Bool) : AluResult :=
  let sum := a.toNat + b.toNat + cin.toNat
  let result := BitVec.ofNat 8 sum
  { result := result
    flags :=
      { z := decide (result = 0)
        n := false
        h := decide (a.toNat % 16 + b.toNat % 16 + cin.toNat > 0xF)
        c := decide (sum > 255) } }

/-- `SubC(a, b, cin)` (R101). The right sides of the two comparisons are not truncated
(D19; log 11). -/
def subC (a b : Byte) (cin : Bool) : AluResult :=
  let result := BitVec.ofInt 8 ((a.toNat : Int) - b.toNat - cin.toNat)
  { result := result
    flags :=
      { z := decide (result = 0)
        n := true
        h := decide (a.toNat % 16 < b.toNat % 16 + cin.toNat)
        c := decide (a.toNat < b.toNat + cin.toNat) } }

/-- `And(a, b)` (R102). -/
def aluAnd (a b : Byte) : AluResult :=
  let result := a &&& b
  { result := result, flags := { z := decide (result = 0), n := false, h := true, c := false } }

/-- `Xor(a, b)` (R103). -/
def aluXor (a b : Byte) : AluResult :=
  let result := a ^^^ b
  { result := result, flags := { z := decide (result = 0), n := false, h := false, c := false } }

/-- `Or(a, b)` (R104). -/
def aluOr (a b : Byte) : AluResult :=
  let result := a ||| b
  { result := result, flags := { z := decide (result = 0), n := false, h := false, c := false } }

/-- What the four rotates share: Zero, Subtract and HalfCarry are forced to 0 whatever the
result (spec/40_alu.md section 4). -/
def rotated (result : Byte) (carry : Bool) : AluResult :=
  { result := result, flags := { z := false, n := false, h := false, c := carry } }

/-- `Rlc(a)` (R105). -/
def rlc (a : Byte) : AluResult := rotated ((a <<< 1) ||| (a >>> 7)) (a.getLsbD 7)

/-- `Rrc(a)` (R106). -/
def rrc (a : Byte) : AluResult := rotated ((a >>> 1) ||| (a <<< 7)) (a.getLsbD 0)

/-- A carry as a byte, 0x00 or 0x01. -/
def carryByte (cin : Bool) : Byte := if cin then 0x01 else 0x00

/-- `Rl(a, cin)` (R107). -/
def rl (a : Byte) (cin : Bool) : AluResult :=
  rotated ((a <<< 1) ||| carryByte cin) (a.getLsbD 7)

/-- `Rr(a, cin)` (R108). -/
def rr (a : Byte) (cin : Bool) : AluResult :=
  rotated ((a >>> 1) ||| (carryByte cin <<< 7)) (a.getLsbD 0)

/-! ## Compositions (R110, R111) -/

/-- `Inc(v)` (R110). -/
def aluInc (v : Byte) : AluResult := addC v 1 false

/-- `Dec(v)` (R110). -/
def aluDec (v : Byte) : AluResult := subC v 1 false

/-- What `Add16` gives: the two result bytes and the flags of the high add. -/
structure Add16Result where
  high : Byte
  low : Byte
  flags : Flags
deriving DecidableEq, Repr

/-- `Add16`, on the halves of the two words: two chained 8-bit adds, low first (R111). -/
def add16 (vHigh vLow wHigh wLow : Byte) : Add16Result :=
  let low := addC vLow wLow false
  let high := addC vHigh wHigh low.flags.c
  { high := high.result, low := low.result, flags := high.flags }

end Sys2Proof.Machine
end

