-- ==== Sys2Proof/WellFormed.lean ====
section
/-! DEFINITION. Which terms of `Instr` are instructions. The operand types already exclude every
selector value a row excludes, and every immediate is a whole byte or word (R77, R80), so the one
check left is that a block-3 term carries an opcode with x = 3 (R82, R200). -/

namespace Sys2Proof

/-- The instruction is one that some opcode encodes. -/
def Instr.wellFormed : Instr → Bool
  | .block3 opcode => decide (0xC0 ≤ opcode.toNat)
  | .nop _ | .ldR16Imm16 _ _ | .ldR16memA _ | .ldAR16mem _ | .ldImm16SP _ | .incR16 _ | .decR16 _
  | .addHLR16 _ | .incR8 _ | .incHL | .decR8 _ | .decHL | .ldR8Imm8 _ _ | .ldHLImm8 _ | .rlca
  | .rrca | .rla | .rra | .unimplemented18 | .unimplemented27 | .unimplemented28
  | .unimplemented2F | .unimplemented37 | .unimplemented38 | .unimplemented3F | .ldR8R8 _ _
  | .ldR8HL _ | .ldHLR8 _ | .reservedHalt | .addA _ | .adcA _ | .subA _ | .sbcA _ | .andA _
  | .xorA _ | .orA _ | .cpA _ => true

end Sys2Proof
end

