-- ==== Sys2Proof/Decode.lean ====
section
/-! DEFINITION. The Instruction Decoder (spec/30_encoding.md): the fields of an opcode, the four
selector tables, the dispatch of the 256 opcodes, decoding of bytes, the encoder, and the
byte-order helpers both use. -/

namespace Sys2Proof

/-! ## Halves of a word -/

/-- `hi(w)`, bits 15:8 (spec/00_scope.md section 6.1). -/
def hiByte (w : Word) : Byte := w.extractLsb' 8 8

/-- `lo(w)`, bits 7:0 (spec/00_scope.md section 6.1). -/
def loByte (w : Word) : Byte := w.extractLsb' 0 8

/-- The concatenation of a high and a low byte (spec/00_scope.md section 6.1). -/
def wordOf (high low : Byte) : Word := high ++ low

/-! ## Fields of an opcode (R70) -/

/-- Field x, bits 7:6. -/
def fieldX (opcode : Byte) : BitVec 2 := opcode.extractLsb' 6 2

/-- Field y, bits 5:3. -/
def fieldY (opcode : Byte) : BitVec 3 := opcode.extractLsb' 3 3

/-- Field z, bits 2:0. -/
def fieldZ (opcode : Byte) : BitVec 3 := opcode.extractLsb' 0 3

/-- Field p, bits 5:4. -/
def fieldP (opcode : Byte) : BitVec 2 := opcode.extractLsb' 4 2

/-- Field q, bit 3. -/
def fieldQ (opcode : Byte) : BitVec 1 := opcode.extractLsb' 3 1

/-- The opcode with fields x, y, z. -/
def opcodeXYZ (x : BitVec 2) (y z : BitVec 3) : Byte := x ++ y ++ z

/-- The block-0 opcode with fields p, q, z. -/
def opcodePQZ (p : BitVec 2) (q : BitVec 1) (z : BitVec 3) : Byte := 0#2 ++ p ++ q ++ z

/-! ## Selector tables -/

/-- `r8sel` (R73). PRESUMED by the spec itself for indexes 1 to 5 (D1; log 4). -/
def r8sel (i : BitVec 3) : Operand8 :=
  match i.toNat with
  | 0 => .reg .b
  | 1 => .reg .c
  | 2 => .reg .d
  | 3 => .reg .e
  | 4 => .reg .h
  | 5 => .reg .l
  | 6 => .indirectHL
  | _ => .reg .a

/-- `r16sel` (R74; D2, log 6). -/
def r16sel (p : BitVec 2) : R16 :=
  match p.toNat with
  | 0 => .bc
  | 1 => .de
  | 2 => .hl
  | _ => .sp

/-- `r16mem` (R75; D2, log 6). -/
def r16mem (p : BitVec 2) : R16Mem :=
  match p.toNat with
  | 0 => .bc
  | 1 => .de
  | 2 => .hlInc
  | _ => .hlDec

/-- `r16stk` (R76; D2, log 6): part of the Decoder's surface, called by no instruction. -/
def r16stk (p : BitVec 2) : R16Stk :=
  match p.toNat with
  | 0 => .bc
  | 1 => .de
  | 2 => .hl
  | _ => .af

/-- The Register16 value an `r16sel` operand names (R74). -/
def R16.reg16 : R16 → Reg16
  | .bc => .bc
  | .de => .de
  | .hl => .hl
  | .sp => .sp

/-- The pair whose value an `r16mem` operand uses as an address (R75). -/
def R16Mem.reg16 : R16Mem → Reg16
  | .bc => .bc
  | .de => .de
  | .hlInc | .hlDec => .hl

/-- The Register16 value an `r16stk` operand names (R76). -/
def R16Stk.reg16 : R16Stk → Reg16
  | .bc => .bc
  | .de => .de
  | .hl => .hl
  | .af => .af

/-! ## The opcodes that fault (R83, R211) -/

/-- The spec's labels of the reachable causes (R211; D13, log 17). There is no label for a field
invariant: that cause cannot occur (R128). -/
inductive FaultCause where
  | block3
  | reservedHalt
  | block0Uncovered
deriving DecidableEq, Repr

/-- The cause the table of R211 gives an opcode, or none for an opcode that executes. -/
def faultCause (opcode : Byte) : Option FaultCause :=
  if 0xC0 ≤ opcode.toNat then some .block3
  else if opcode = 0x76 then some .reservedHalt
  else if opcode ∈ [0x18, 0x27, 0x28, 0x2F, 0x37, 0x38, 0x3F] then some .block0Uncovered
  else none

/-! ## Dispatch (R81, R82) -/

/-- What an opcode byte alone decides: the format (R77) and, given the immediate, the instruction. -/
inductive Template where
  | op (i : Instr)
  | opI8 (f : Byte → Instr)
  | opI16 (f : Word → Instr)

/-- How many immediate bytes follow the opcode (R77). -/
def Template.immediates : Template → Nat
  | .op _ => 0
  | .opI8 _ => 1
  | .opI16 _ => 2

/-- Block 0, keyed on (p, q, z), with y = 2p+q for the rows that use it (R81, R82). -/
def decodeBlock0 (opcode : Byte) : Template :=
  let p := fieldP opcode
  let q := fieldQ opcode
  match (fieldZ opcode).toNat with
  | 0 =>
    if q = 0 then .op (.nop p)
    else match p.toNat with
      | 0 => .opI16 .ldImm16SP
      | 1 => .op .unimplemented18
      | 2 => .op .unimplemented28
      | _ => .op .unimplemented38
  | 1 => if q = 0 then .opI16 (.ldR16Imm16 (r16sel p)) else .op (.addHLR16 (r16sel p))
  | 2 => if q = 0 then .op (.ldR16memA (r16mem p)) else .op (.ldAR16mem (r16mem p))
  | 3 => if q = 0 then .op (.incR16 (r16sel p)) else .op (.decR16 (r16sel p))
  | 4 => match r8sel (fieldY opcode) with
    | .reg r => .op (.incR8 r)
    | .indirectHL => .op .incHL
  | 5 => match r8sel (fieldY opcode) with
    | .reg r => .op (.decR8 r)
    | .indirectHL => .op .decHL
  | 6 => match r8sel (fieldY opcode) with
    | .reg dst => .opI8 (.ldR8Imm8 dst)
    | .indirectHL => .opI8 .ldHLImm8
  | _ => match (fieldY opcode).toNat with
    | 0 => .op .rlca
    | 1 => .op .rrca
    | 2 => .op .rla
    | 3 => .op .rra
    | 4 => .op .unimplemented27
    | 5 => .op .unimplemented2F
    | 6 => .op .unimplemented37
    | _ => .op .unimplemented3F

/-- Block 1, keyed on (y, z), with 0x76 ahead of the generic move (R81, R82). -/
def decodeBlock1 (opcode : Byte) : Template :=
  match r8sel (fieldY opcode), r8sel (fieldZ opcode) with
  | .indirectHL, .indirectHL => .op .reservedHalt
  | .reg dst, .reg src => .op (.ldR8R8 dst src)
  | .reg dst, .indirectHL => .op (.ldR8HL dst)
  | .indirectHL, .reg src => .op (.ldHLR8 src)

/-- Block 2: y selects the operation and z the operand (R81, R82). -/
def decodeBlock2 (opcode : Byte) : Template :=
  let o := r8sel (fieldZ opcode)
  match (fieldY opcode).toNat with
  | 0 => .op (.addA o)
  | 1 => .op (.adcA o)
  | 2 => .op (.subA o)
  | 3 => .op (.sbcA o)
  | 4 => .op (.andA o)
  | 5 => .op (.xorA o)
  | 6 => .op (.orA o)
  | _ => .op (.cpA o)

/-- The opcode map: every opcode selects exactly one row (R71, R82). -/
def decodeOpcode (opcode : Byte) : Template :=
  match (fieldX opcode).toNat with
  | 0 => decodeBlock0 opcode
  | 1 => decodeBlock1 opcode
  | 2 => decodeBlock2 opcode
  | _ => .op (.block3 opcode)

/-- The length of an opcode's instruction; a faulting opcode has none (R77). -/
def opcodeLength (opcode : Byte) : Option Nat :=
  match faultCause opcode with
  | some _ => none
  | none => some (1 + (decodeOpcode opcode).immediates)

/-! ## Decoding bytes -/

/-- Why a list of bytes is not the start of an instruction: it ends too soon. No byte value is
ever the reason (R71). -/
inductive DecodeError where
  | noOpcode
  | noImm8
  | noImm16
deriving DecidableEq, Repr

/-- The instruction at the head of a list of bytes, and the bytes after it (R77 to R79). -/
def decode : List Byte → Except DecodeError (Instr × List Byte)
  | [] => .error .noOpcode
  | opcode :: rest =>
    match decodeOpcode opcode, rest with
    | .op i, rest => .ok (i, rest)
    | .opI8 f, n :: rest => .ok (f n, rest)
    | .opI8 _, [] => .error .noImm8
    | .opI16 f, low :: high :: rest => .ok (f (wordOf high low), rest)
    | .opI16 _, _ => .error .noImm16

/-- Byte `k` of a number whose bit 0 is the least significant bit of byte 0. -/
def tableByte (w k : Nat) : Byte := BitVec.ofNat 8 (w >>> (8 * k))

/-- The bytes of a table row's word, the first at the lowest address, with every bit above `nbits`
zero, up to the longest instruction (R77). -/
def tableBytes (nbits w : Nat) : List Byte :=
  [tableByte (w % 2 ^ nbits) 0, tableByte (w % 2 ^ nbits) 1, tableByte (w % 2 ^ nbits) 2]

/-- The instruction the decoder reads from a table row's word. -/
def decodeTableWord (nbits w : Nat) : Option Instr :=
  match decode (tableBytes nbits w) with
  | .ok (i, _) => some i
  | .error _ => none

/-! ## The encoder -/

/-- The `r8sel` index of a cell (R73). -/
def R8.index : R8 → BitVec 3
  | .b => 0
  | .c => 1
  | .d => 2
  | .e => 3
  | .h => 4
  | .l => 5
  | .a => 7

/-- The `r8sel` index of an operand (R73). -/
def Operand8.index : Operand8 → BitVec 3
  | .reg r => r.index
  | .indirectHL => 6

/-- The `r16sel` index of an operand (R74). -/
def R16.index : R16 → BitVec 2
  | .bc => 0
  | .de => 1
  | .hl => 2
  | .sp => 3

/-- The `r16mem` index of an operand (R75). -/
def R16Mem.index : R16Mem → BitVec 2
  | .bc => 0
  | .de => 1
  | .hlInc => 2
  | .hlDec => 3

/-- The opcode byte of an instruction, from the patterns of R82. -/
def Instr.opcode : Instr → Byte
  | .nop p => opcodePQZ p 0 0
  | .ldR16Imm16 dst _ => opcodePQZ dst.index 0 1
  | .ldR16memA m => opcodePQZ m.index 0 2
  | .ldAR16mem m => opcodePQZ m.index 1 2
  | .ldImm16SP _ => opcodePQZ 0 1 0
  | .incR16 dst => opcodePQZ dst.index 0 3
  | .decR16 dst => opcodePQZ dst.index 1 3
  | .addHLR16 w => opcodePQZ w.index 1 1
  | .incR8 r => opcodeXYZ 0 r.index 4
  | .incHL => opcodeXYZ 0 6 4
  | .decR8 r => opcodeXYZ 0 r.index 5
  | .decHL => opcodeXYZ 0 6 5
  | .ldR8Imm8 dst _ => opcodeXYZ 0 dst.index 6
  | .ldHLImm8 _ => opcodeXYZ 0 6 6
  | .rlca => opcodePQZ 0 0 7
  | .rrca => opcodePQZ 0 1 7
  | .rla => opcodePQZ 1 0 7
  | .rra => opcodePQZ 1 1 7
  | .unimplemented18 => 0x18
  | .unimplemented27 => 0x27
  | .unimplemented28 => 0x28
  | .unimplemented2F => 0x2F
  | .unimplemented37 => 0x37
  | .unimplemented38 => 0x38
  | .unimplemented3F => 0x3F
  | .ldR8R8 dst src => opcodeXYZ 1 dst.index src.index
  | .ldR8HL dst => opcodeXYZ 1 dst.index 6
  | .ldHLR8 src => opcodeXYZ 1 6 src.index
  | .reservedHalt => opcodeXYZ 1 6 6
  | .addA o => opcodeXYZ 2 0 o.index
  | .adcA o => opcodeXYZ 2 1 o.index
  | .subA o => opcodeXYZ 2 2 o.index
  | .sbcA o => opcodeXYZ 2 3 o.index
  | .andA o => opcodeXYZ 2 4 o.index
  | .xorA o => opcodeXYZ 2 5 o.index
  | .orA o => opcodeXYZ 2 6 o.index
  | .cpA o => opcodeXYZ 2 7 o.index
  | .block3 opcode => opcode

/-- The immediate bytes of an instruction in memory order (R77, R79). -/
def Instr.immediateBytes : Instr → List Byte
  | .ldR16Imm16 _ nn | .ldImm16SP nn => [loByte nn, hiByte nn]
  | .ldR8Imm8 _ n | .ldHLImm8 n => [n]
  | .nop _ | .ldR16memA _ | .ldAR16mem _ | .incR16 _ | .decR16 _ | .addHLR16 _ | .incR8 _
  | .incHL | .decR8 _ | .decHL | .rlca | .rrca | .rla | .rra | .unimplemented18
  | .unimplemented27 | .unimplemented28 | .unimplemented2F | .unimplemented37 | .unimplemented38
  | .unimplemented3F | .ldR8R8 _ _ | .ldR8HL _ | .ldHLR8 _ | .reservedHalt | .addA _ | .adcA _
  | .subA _ | .sbcA _ | .andA _ | .xorA _ | .orA _ | .cpA _ | .block3 _ => []

/-- The bytes of an instruction in memory order (R77, R82). -/
def encode (i : Instr) : List Byte := i.opcode :: i.immediateBytes

end Sys2Proof
end

