-- ==== Sys2Proof/Machine/Ops.lean ====
section
/-! DEFINITION. The named operations over memory, the MEM port and the registers, the opcode and
immediate fetches, and raising the one error condition. -/

namespace Sys2Proof.Machine

/-! ## The byte array (R50, R53) -/

/-- The byte an address holds; an unlisted address reads as `Config.unlistedByte`. -/
def Memory.read : Memory → Nat → Byte
  | [], _ => Config.unlistedByte
  | (k, w) :: m, a => if k = a then w else Memory.read m a

/-- A cell in front of a list, unless it holds what an unlisted address reads as. -/
def Memory.cons (a : Nat) (v : Byte) (m : Memory) : Memory :=
  if v = Config.unlistedByte then m else (a, v) :: m

/-- Set the byte an address holds, keeping the canonical form. -/
def Memory.write : Memory → Nat → Byte → Memory
  | [], a, v => Memory.cons a v []
  | (k, w) :: m, a, v =>
    if a < k then Memory.cons a v ((k, w) :: m)
    else if a = k then Memory.cons a v m
    else (k, w) :: Memory.write m a v

/-- Every cell is inside the address space, lies above `low`, and holds something listed; the
addresses rise strictly. -/
def Memory.wfFrom : Nat → Memory → Bool
  | _, [] => true
  | low, (k, w) :: m =>
    decide (low ≤ k) && decide (k < Config.addressSpaceSize) && decide (w ≠ Config.unlistedByte) &&
      Memory.wfFrom (k + 1) m

/-- The canonical form of memory. -/
def Memory.wf (m : Memory) : Bool := Memory.wfFrom 0 m

/-! ## The MEM port (R3, R53, R56) -/

/-- `MemRead(addr, 1)`: the answer of the oracle if it has one, else the byte of the array. -/
def State.memRead (s : State) (addr : Word) : Byte × State :=
  let v := s.answers.headD (s.mem.read addr.toNat)
  (v, { s with answers := s.answers.tail, bus := s.bus ++ [.read addr v] })

/-- `MemWrite(addr, 1, v)`. -/
def State.memWrite (s : State) (addr : Word) (v : Byte) : State :=
  { s with mem := s.mem.write addr.toNat v, bus := s.bus ++ [.write addr v] }

/-- The 16-bit store of LD [imm16],SP: low byte first, then high byte at the next address, mod
65536 (R54, R134; D7 and D8, log 9 and log 10). -/
def State.memWrite16 (s : State) (addr v : Word) : State :=
  (s.memWrite addr (loByte v)).memWrite (addr + 1) (hiByte v)

/-! ## The Register File (R29 to R31) -/

/-- `get_register8` (R29). -/
def State.getR8 (s : State) : R8 → Byte
  | .a => s.a
  | .b => s.b
  | .c => s.c
  | .d => s.d
  | .e => s.e
  | .h => s.h
  | .l => s.l

/-- `set_register8` (R29). -/
def State.setR8 (s : State) (r : R8) (v : Byte) : State :=
  match r with
  | .a => { s with a := v }
  | .b => { s with b := v }
  | .c => { s with c := v }
  | .d => { s with d := v }
  | .e => { s with e := v }
  | .h => { s with h := v }
  | .l => { s with l := v }

/-- The view F: Z, N, H, C at bits 7 to 4, and 0 below (R25). PRESUMED by the spec itself for the
order of the four bits (D3; log 5). -/
def Flags.toF (f : Flags) : Byte :=
  BitVec.ofBool f.z ++ BitVec.ofBool f.n ++ BitVec.ofBool f.h ++ BitVec.ofBool f.c ++ 0#4

/-- The flags a byte holds in the layout of F; its low nibble is discarded (R25, R31; log 5). -/
def Flags.ofF (v : Byte) : Flags :=
  { z := v.getLsbD 7, n := v.getLsbD 6, h := v.getLsbD 5, c := v.getLsbD 4 }

/-- `get_register16` (R21, R30). -/
def State.getR16 (s : State) : Reg16 → Word
  | .af => wordOf s.a s.flags.toF
  | .bc => wordOf s.b s.c
  | .de => wordOf s.d s.e
  | .hl => wordOf s.h s.l
  | .sp => s.sp
  | .pc => s.pc

/-- `set_register16` (R31). -/
def State.setR16 (s : State) (n : Reg16) (v : Word) : State :=
  match n with
  | .af => { s with a := hiByte v, flags := Flags.ofF (loByte v) }
  | .bc => { s with b := hiByte v, c := loByte v }
  | .de => { s with d := hiByte v, e := loByte v }
  | .hl => { s with h := hiByte v, l := loByte v }
  | .sp => { s with sp := v }
  | .pc => { s with pc := v }

/-! ## Fetching (R78, R79, R120) -/

/-- `Fetch8()` (R78). -/
def State.fetch8 (s : State) : Byte × State :=
  let r := s.memRead s.pc
  (r.1, { r.2 with pc := r.2.pc + 1 })

/-- `Fetch16()`: the low half first (R79). -/
def State.fetch16 (s : State) : Word × State :=
  let low := s.fetch8
  let high := low.2.fetch8
  (wordOf high.1 low.1, high.2)

/-- The state once `n` bytes of the instruction at PC have been fetched. -/
def State.fetched : Nat → State → State
  | 0, s => s
  | n + 1, s => State.fetched n s.fetch8.2

/-- The instruction a step fetches at PC: its opcode and the immediates its format has, and no
other byte (R77, R120). -/
def State.fetchInstr (s : State) : Instr :=
  let opcode := s.fetch8
  match decodeOpcode opcode.1 with
  | .op i => i
  | .opI8 f => f opcode.2.fetch8.1
  | .opI16 f => f opcode.2.fetch16.1

/-! ## The error condition (R210, R216) -/

/-- The state a failed step leaves: its one transaction, the fetch of its opcode, has been made, and
the fetch's increment of PC is undone (R57, R125; D5, log 8). -/
def State.opcodeFetchOnly (s : State) : State := { s.fetched 1 with pc := s.pc }

/-- `raise Unimplemented(opcode, pc0)`, given the state before the step: the step ends with
`Fault(opcode, pc0)`, no register changes, and one transaction has been made (R125, R210; log 8).
This is the whole of exception entry: there is no vector, no saved register, no mode (R216), and no
return from an exception (R217). -/
def raiseUnimplemented (opcode : Byte) (s : State) : Result :=
  .fault (.unimplemented opcode s.pc s.opcodeFetchOnly)

/-! ## Loading from outside (R243) -/

/-- Bytes placed in the collaborator's array from an address on, mod 65536, not by the core. -/
def Memory.load (m : Memory) (addr : Word) : List Byte → Memory
  | [] => m
  | v :: vs => Memory.load (m.write addr.toNat v) (addr + 1) vs

/-- A program's bytes placed where the next fetch reads: in the array at PC, with the oracle
silent so that the array answers (log 13). -/
def State.loadAtPc (s : State) (bytes : List Byte) : State :=
  { s with mem := s.mem.load s.pc bytes, answers := [] }

end Sys2Proof.Machine
end

