-- ==== Sys2Proof/Machine/Operands.lean ====
section
/-! DEFINITION. The operand forms (spec/30_encoding.md R73 to R75 and R87; spec/45_block2_alu.md
R180). Every meaning reads its operands before it writes a register (R36; D16, log 12). -/

namespace Sys2Proof.Machine

/-- The pair HL, the address of every `[HL]` operand (R21, R87). -/
def State.hl (s : State) : Word := s.getR16 .hl

/-- `ReadR8` (R87), which is `operand(z)` of R180: a cell, or the memory byte at HL. -/
def State.readOperand8 (s : State) : Operand8 → Byte × State
  | .reg r => (s.getR8 r, s)
  | .indirectHL => s.memRead s.hl

/-- `WriteR8` (R87): a cell, or the memory byte at HL. -/
def State.writeOperand8 (s : State) (o : Operand8) (v : Byte) : State :=
  match o with
  | .reg r => s.setR8 r v
  | .indirectHL => s.memWrite s.hl v

/-- The address an `r16mem` operand gives: its pair before the access (R75). -/
def State.r16memAddr (s : State) (m : R16Mem) : Word := s.getR16 m.reg16

/-- What an `r16mem` operand does to HL after the access, given the address used: +1 or -1 mod
65536 for `[HL+]` and `[HL-]`, else nothing (R75, R132, R133; D7, log 9). -/
def State.r16memPost (s : State) (m : R16Mem) (addr : Word) : State :=
  match m with
  | .bc | .de => s
  | .hlInc => s.setR16 .hl (addr + 1)
  | .hlDec => s.setR16 .hl (addr - 1)

end Sys2Proof.Machine
end

