-- ==== Sys2Proof/Machine/Block0Byte.lean ====
section
/-! DEFINITION. Block 0, part 2 (spec/43_block0_8bit.md R150 to R160). A meaning is given the state
before the step; it takes the instruction's own fetches first (R77, R120). -/

namespace Sys2Proof.Machine

/-- What INC and DEC of either form do after the fetch: read the operand, apply the ALU function,
write the result back, commit all flags but Carry (R150 to R153). -/
def stepOperand8 (f : Byte → AluResult) (o : Operand8) (s : State) : Result :=
  let v := s.readOperand8 o
  let t := f v.1
  .next ((v.2.writeOperand8 o t.result).setFlags t.flags Flags.butCarry)

/-- INC r8 (R150). -/
def execIncR8 (r : R8) (s : State) : Result :=
  stepOperand8 aluInc (.reg r) (s.fetched 1)

/-- INC [HL] (R151). -/
def execIncHL (s : State) : Result :=
  stepOperand8 aluInc .indirectHL (s.fetched 1)

/-- DEC r8 (R152). -/
def execDecR8 (r : R8) (s : State) : Result :=
  stepOperand8 aluDec (.reg r) (s.fetched 1)

/-- DEC [HL] (R153). -/
def execDecHL (s : State) : Result :=
  stepOperand8 aluDec .indirectHL (s.fetched 1)

/-- LD r8,imm8 (R154). -/
def execLdR8Imm8 (dst : R8) (n : Byte) (s : State) : Result :=
  .next ((s.fetched 2).writeOperand8 (.reg dst) n)

/-- LD [HL],imm8 (R155). -/
def execLdHLImm8 (n : Byte) (s : State) : Result :=
  .next ((s.fetched 2).writeOperand8 .indirectHL n)

/-- What the four rotates do with the ALU record: A and all four flags (R156 to R159). -/
def commitRotate (t : AluResult) (s : State) : Result :=
  .next ((s.setR8 .a t.result).setFlags t.flags Flags.all)

/-- RLCA (R156). -/
def execRlca (s : State) : Result := commitRotate (rlc s.a) (s.fetched 1)

/-- RRCA (R157). -/
def execRrca (s : State) : Result := commitRotate (rrc s.a) (s.fetched 1)

/-- RLA (R158). -/
def execRla (s : State) : Result := commitRotate (rl s.a s.flags.c) (s.fetched 1)

/-- RRA (R159). -/
def execRra (s : State) : Result := commitRotate (rr s.a s.flags.c) (s.fetched 1)

end Sys2Proof.Machine
end

