-- ==== Sys2Proof/Machine/Block0Wide.lean ====
section
/-! DEFINITION. Block 0, part 1 (spec/42_block0_16bit.md R130 to R138). A meaning is given the
state before the step; it takes the instruction's own fetches first (R77, R120). -/

namespace Sys2Proof.Machine

/-- NOP (R130): nothing beyond the opcode fetch; the field p is ignored (D4, log 7). -/
def execNop (_p : BitVec 2) (s : State) : Result :=
  .next (s.fetched 1)

/-- LD r16,imm16 (R131). -/
def execLdR16Imm16 (dst : R16) (nn : Word) (s : State) : Result :=
  .next ((s.fetched 3).setR16 dst.reg16 nn)

/-- LD [r16mem],A (R132). -/
def execLdR16memA (m : R16Mem) (s : State) : Result :=
  let s := s.fetched 1
  let addr := s.r16memAddr m
  .next ((s.memWrite addr s.a).r16memPost m addr)

/-- LD A,[r16mem] (R133). -/
def execLdAR16mem (m : R16Mem) (s : State) : Result :=
  let s := s.fetched 1
  let addr := s.r16memAddr m
  let v := s.memRead addr
  .next ((v.2.setR8 .a v.1).r16memPost m addr)

/-- LD [imm16],SP (R134). -/
def execLdImm16SP (nn : Word) (s : State) : Result :=
  let s := s.fetched 3
  .next (s.memWrite16 nn s.sp)

/-- INC r16 (R135). -/
def execIncR16 (dst : R16) (s : State) : Result :=
  let s := s.fetched 1
  .next (s.setR16 dst.reg16 (s.getR16 dst.reg16 + 1))

/-- DEC r16 (R136). -/
def execDecR16 (dst : R16) (s : State) : Result :=
  let s := s.fetched 1
  .next (s.setR16 dst.reg16 (s.getR16 dst.reg16 - 1))

/-- ADD HL,r16 (R137). -/
def execAddHLR16 (w : R16) (s : State) : Result :=
  let s := s.fetched 1
  let v := s.getR16 w.reg16
  let t := add16 s.h s.l (hiByte v) (loByte v)
  .next (((s.setR8 .l t.low).setR8 .h t.high).setFlags t.flags Flags.butZero)

end Sys2Proof.Machine
end

