-- ==== Sys2Proof/Machine/Block1.lean ====
section
/-! DEFINITION. Block 1 (spec/44_block1_moves.md R170 to R174). A meaning is given the state before
the step; it takes the instruction's own fetch first (R77, R120). -/

namespace Sys2Proof.Machine

/-- A plain byte copy after the opcode fetch; no flag changes (R170 to R172). -/
def moveOperand8 (dst src : Operand8) (s : State) : Result :=
  let v := s.readOperand8 src
  .next (v.2.writeOperand8 dst v.1)

/-- LD r8,r8 (R170). -/
def execLdR8R8 (dst src : R8) (s : State) : Result :=
  moveOperand8 (.reg dst) (.reg src) (s.fetched 1)

/-- LD r8,[HL] (R171). -/
def execLdR8HL (dst : R8) (s : State) : Result :=
  moveOperand8 (.reg dst) .indirectHL (s.fetched 1)

/-- LD [HL],r8 (R172). -/
def execLdHLR8 (src : R8) (s : State) : Result :=
  moveOperand8 .indirectHL (.reg src) (s.fetched 1)

/-- The reserved encoding 0x76 (R173): it faults, and neither halts nor copies. -/
def execReservedHalt (s : State) : Result := raiseUnimplemented 0x76 s

end Sys2Proof.Machine
end

