-- ==== Sys2Proof/Machine/Block2.lean ====
section
/-! DEFINITION. Block 2 (spec/45_block2_alu.md R180 to R188). A meaning is given the state before
the step; it takes the instruction's own fetch first (R77, R120). -/

namespace Sys2Proof.Machine

/-- What the seven writing instructions of the block share: the operand, the ALU function of A,
the operand and the old Carry, A, and all four flags (R180). -/
def accumulate (f : Byte → Byte → Bool → AluResult) (o : Operand8) (s : State) : Result :=
  let v := (s.fetched 1).readOperand8 o
  let t := f s.a v.1 s.flags.c
  .next ((v.2.setR8 .a t.result).setFlags t.flags Flags.all)

/-- What CP shares with them: the flags without the result (R180, R188). -/
def compareWith (f : Byte → Byte → Bool → AluResult) (o : Operand8) (s : State) : Result :=
  let v := (s.fetched 1).readOperand8 o
  .next (v.2.setFlags (f s.a v.1 s.flags.c).flags Flags.all)

/-- ADD A,operand (R181): the old Carry is not read. -/
def execAddA (o : Operand8) (s : State) : Result := accumulate (fun a v _ => addC a v false) o s

/-- ADC A,operand (R182). -/
def execAdcA (o : Operand8) (s : State) : Result := accumulate addC o s

/-- SUB A,operand (R183): the old Carry is not read. -/
def execSubA (o : Operand8) (s : State) : Result := accumulate (fun a v _ => subC a v false) o s

/-- SBC A,operand (R184). -/
def execSbcA (o : Operand8) (s : State) : Result := accumulate subC o s

/-- AND A,operand (R185). -/
def execAndA (o : Operand8) (s : State) : Result := accumulate (fun a v _ => aluAnd a v) o s

/-- XOR A,operand (R186). -/
def execXorA (o : Operand8) (s : State) : Result := accumulate (fun a v _ => aluXor a v) o s

/-- OR A,operand (R187). -/
def execOrA (o : Operand8) (s : State) : Result := accumulate (fun a v _ => aluOr a v) o s

/-- CP A,operand (R188): the old Carry is not read. -/
def execCpA (o : Operand8) (s : State) : Result := compareWith (fun a v _ => subC a v false) o s

end Sys2Proof.Machine
end

