-- ==== Sys2Proof/Machine/Unimplemented.lean ====
section
/-! DEFINITION. Block 3 and the seven uncovered block-0 opcodes (spec/46_unimplemented.md R200,
R201): each raises the unimplemented-instruction condition and does nothing else. -/

namespace Sys2Proof.Machine

/-- 0x18 (R201). -/
def execUnimplemented18 (s : State) : Result := raiseUnimplemented 0x18 s

/-- 0x27 (R201). -/
def execUnimplemented27 (s : State) : Result := raiseUnimplemented 0x27 s

/-- 0x28 (R201). -/
def execUnimplemented28 (s : State) : Result := raiseUnimplemented 0x28 s

/-- 0x2F (R201). -/
def execUnimplemented2F (s : State) : Result := raiseUnimplemented 0x2F s

/-- 0x37 (R201). -/
def execUnimplemented37 (s : State) : Result := raiseUnimplemented 0x37 s

/-- 0x38 (R201). -/
def execUnimplemented38 (s : State) : Result := raiseUnimplemented 0x38 s

/-- 0x3F (R201). -/
def execUnimplemented3F (s : State) : Result := raiseUnimplemented 0x3F s

/-- A block-3 opcode (R200): no operand is decoded, no further byte is read. -/
def execBlock3 (opcode : Byte) (s : State) : Result := raiseUnimplemented opcode s

end Sys2Proof.Machine
end

