-- ==== Sys2Proof/Machine/Dispatch.lean ====
section
/-! DEFINITION. The meaning of each instruction. -/

namespace Sys2Proof.Machine

def exec (i : Instr) (s : State) : Host.Outcome State Fault Refusal :=
  match i with
  -- spec/42_block0_16bit.md
  | .nop p => Sys2Proof.Machine.execNop p s
  | .ldR16Imm16 dst nn => Sys2Proof.Machine.execLdR16Imm16 dst nn s
  | .ldR16memA m => Sys2Proof.Machine.execLdR16memA m s
  | .ldAR16mem m => Sys2Proof.Machine.execLdAR16mem m s
  | .ldImm16SP nn => Sys2Proof.Machine.execLdImm16SP nn s
  | .incR16 dst => Sys2Proof.Machine.execIncR16 dst s
  | .decR16 dst => Sys2Proof.Machine.execDecR16 dst s
  | .addHLR16 w => Sys2Proof.Machine.execAddHLR16 w s
  -- spec/43_block0_8bit.md
  | .incR8 r => Sys2Proof.Machine.execIncR8 r s
  | .incHL => Sys2Proof.Machine.execIncHL s
  | .decR8 r => Sys2Proof.Machine.execDecR8 r s
  | .decHL => Sys2Proof.Machine.execDecHL s
  | .ldR8Imm8 dst n => Sys2Proof.Machine.execLdR8Imm8 dst n s
  | .ldHLImm8 n => Sys2Proof.Machine.execLdHLImm8 n s
  | .rlca => Sys2Proof.Machine.execRlca s
  | .rrca => Sys2Proof.Machine.execRrca s
  | .rla => Sys2Proof.Machine.execRla s
  | .rra => Sys2Proof.Machine.execRra s
  -- spec/46_unimplemented.md, the uncovered opcodes of block 0
  | .unimplemented18 => Sys2Proof.Machine.execUnimplemented18 s
  | .unimplemented27 => Sys2Proof.Machine.execUnimplemented27 s
  | .unimplemented28 => Sys2Proof.Machine.execUnimplemented28 s
  | .unimplemented2F => Sys2Proof.Machine.execUnimplemented2F s
  | .unimplemented37 => Sys2Proof.Machine.execUnimplemented37 s
  | .unimplemented38 => Sys2Proof.Machine.execUnimplemented38 s
  | .unimplemented3F => Sys2Proof.Machine.execUnimplemented3F s
  -- spec/44_block1_moves.md
  | .ldR8R8 dst src => Sys2Proof.Machine.execLdR8R8 dst src s
  | .ldR8HL dst => Sys2Proof.Machine.execLdR8HL dst s
  | .ldHLR8 src => Sys2Proof.Machine.execLdHLR8 src s
  | .reservedHalt => Sys2Proof.Machine.execReservedHalt s
  -- spec/45_block2_alu.md
  | .addA o => Sys2Proof.Machine.execAddA o s
  | .adcA o => Sys2Proof.Machine.execAdcA o s
  | .subA o => Sys2Proof.Machine.execSubA o s
  | .sbcA o => Sys2Proof.Machine.execSbcA o s
  | .andA o => Sys2Proof.Machine.execAndA o s
  | .xorA o => Sys2Proof.Machine.execXorA o s
  | .orA o => Sys2Proof.Machine.execOrA o s
  | .cpA o => Sys2Proof.Machine.execCpA o s
  -- spec/46_unimplemented.md, block 3
  | .block3 opcode => Sys2Proof.Machine.execBlock3 opcode s

end Sys2Proof.Machine
end

