-- ==== Sys2Proof/Machine/RegPort.lean ====
section
/-! DEFINITION. What the outside does to the machine between two steps: the REG port's writes
(spec/00_scope.md R5; spec/10_state.md R29 to R34), construction (R240), and another bus agent's
write or answers behind the MEM port (spec/20_memory.md R53, R60). Reads over the REG port are
`State.getR8`, `State.getR16` and the field `flags`. -/

namespace Sys2Proof.Machine

/-- One act of the outside. It takes place between steps only (R34; log 15). The 8-bit accesses
take a cell's name, so the sentinel IndirectHL cannot be passed (R29, U8). -/
inductive HostAct where
  /-- `set_register8` (R29). -/
  | setRegister8 (r : R8) (v : Byte)
  /-- `set_register16`, AF and PC among its names (R31). -/
  | setRegister16 (n : Reg16) (v : Word)
  /-- `set_flags` (R33). -/
  | setFlags (new mask : Flags)
  /-- Construction of the core, which touches no memory (R240, R242). -/
  | construct
  /-- A byte written to the array by another agent, with no transaction of the core's (R60). -/
  | busWrite (addr : Word) (v : Byte)
  /-- What the next reads will answer (R53; log 2). -/
  | oracle (answers : List Byte)
deriving DecidableEq, Repr

/-- A freshly constructed core on the same memory collaborator (R240, R242). -/
def State.constructed (s : State) : State :=
  { State.reset with mem := s.mem, answers := s.answers, bus := s.bus }

/-- What an act of the outside does. -/
def hostAct (act : HostAct) (s : State) : State :=
  match act with
  | .setRegister8 r v => s.setR8 r v
  | .setRegister16 n v => s.setR16 n v
  | .setFlags new mask => s.setFlags new mask
  | .construct => s.constructed
  | .busWrite addr v => { s with mem := s.mem.write addr.toNat v }
  | .oracle answers => { s with answers := answers }

end Sys2Proof.Machine
end

