-- ==== Sys2Proof/Machine/Step.lean ====
section
/-! DEFINITION. One `step()` (spec/41_engine_step.md R120). -/

namespace Sys2Proof.Machine

/-- One step: the instruction at PC, executed from the state before the step. The meaning itself
takes the fetches that `State.fetchInstr` reads (log 14). -/
def step (s : State) : Host.Outcome State Fault Refusal := exec s.fetchInstr s

/-- The state with an instruction of the opcode table's numbering placed where the next step
fetches (R243; log 13). -/
def State.withFetchWord (s : State) (nbits w : Nat) : State := s.loadAtPc (tableBytes nbits w)

end Sys2Proof.Machine
end

