-- ==== Sys2Proof/Safety.lean ====
section
/-! DEFINITION. The words claims are stated in: what counts as a safe step and run, the invariant,
what a step's fetches and data transactions are, and the reading of a transaction history. -/

namespace Sys2Proof.Machine

/-! ## Outcomes -/

/-- The next state, if the outcome is one. -/
def nextOf : Result → Option State
  | .next t => some t
  | .fault _ => none
  | .refused _ => none

/-- The fault, if the outcome is one. -/
def faultOf : Result → Option Fault
  | .next _ => none
  | .fault r => some r
  | .refused _ => none

/-- The offending opcode the condition carries (R213). -/
def Fault.opcode : Fault → Byte
  | .unimplemented o _ _ => o

/-- The PC of its fetch, which the condition carries (R213). -/
def Fault.pc : Fault → Word
  | .unimplemented _ p _ => p

/-- The state the failed step leaves (R125). -/
def Fault.after : Fault → State
  | .unimplemented _ _ t => t

/-- `t` is the state a step from `s` leaves, whether it completes or fails (R123). -/
def Leaves (s t : State) : Prop := step s = .next t ∨ ∃ r, step s = .fault r ∧ r.after = t

/-- A step is safe when it completes: its opcode is one of the 184 (R123, R243). -/
def SafeStep (s : State) : Prop := ∃ t, step s = .next t

/-- A run of `n` steps is safe when every one of them completes (R127, R243). -/
def SafeRun (n : Nat) (s : State) : Prop := ∃ t, Host.Core.run Sys2Proof.core n s = .next t

/-- `t` comes from `s` by completed steps. -/
inductive Reaches (s : State) : State → Prop where
  | start : Reaches s s
  | later (t u : State) (before : Reaches s t) (now : step t = .next u) : Reaches s u

/-! ## The invariant -/

/-- Memory is in its canonical form: 16-bit addresses strictly rising, no cell that holds what an
unlisted address reads as. -/
def State.Inv (s : State) : Prop := s.mem.wf = true

/-! ## What a step does on the MEM port -/

/-- What the port answers to read number `k` from now on (0 the next one) when it is at `addr` and
no write comes before it: the oracle's answer, or the array's byte (R53). -/
def State.answer (s : State) (k : Nat) (addr : Word) : Byte :=
  (s.answers[k]?).getD (s.mem.read addr.toNat)

/-- The byte fetched at PC + `k` (R78). -/
def State.fetchedByte (s : State) (k : Nat) : Byte := s.answer k (s.pc + BitVec.ofNat 16 k)

/-- The reads that fetch `n` bytes from PC on (R57, R78). -/
def State.fetchReads (s : State) (n : Nat) : List Transaction :=
  (List.range n).map fun k => .read (s.pc + BitVec.ofNat 16 k) (s.fetchedByte k)

/-- The state a failed step from `s` leaves, said field by field: the read of the opcode at PC has
been made and answered, and nothing else has changed, PC included (R57, R125; log 8). -/
def State.afterFailure (s : State) : State :=
  { s with answers := s.answers.drop 1, bus := s.bus ++ [.read s.pc (s.fetchedByte 0)] }

/-- Is the transaction a read? -/
def Transaction.isRead : Transaction → Bool
  | .read _ _ => true
  | .write _ _ => false

/-- The address of a transaction. -/
def Transaction.addr : Transaction → Word
  | .read a _ => a
  | .write a _ => a

/-- The transactions a completed step from `s` to `t` appended to the history. -/
def newTransactions (s t : State) : List Transaction := t.bus.drop s.bus.length

/-- The state `t` is `n` fetched bytes on from `s`: PC has advanced by `n`, the history has grown
by the `n` fetches and then exactly the transactions `data`, and the oracle has given one answer
for each read (R57, R78). -/
def Took (n : Nat) (data : List Transaction) (s t : State) : Prop :=
  t.pc = s.pc + BitVec.ofNat 16 n ∧
  t.bus = s.bus ++ s.fetchReads n ++ data ∧
  t.answers = s.answers.drop (n + (data.filter Transaction.isRead).length)

/-! ## Frames -/

/-- Every cell but those in `rs` is unchanged. -/
def SameRegsBut (rs : List R8) (s t : State) : Prop := ∀ r, r ∉ rs → t.getR8 r = s.getR8 r

/-- Every address reads as before. -/
def SameMem (s t : State) : Prop := ∀ x, t.mem.read x = s.mem.read x

/-- Every address but those in `addrs` reads as before. -/
def SameMemBut (addrs : List Word) (s t : State) : Prop :=
  ∀ x, x ∉ addrs.map BitVec.toNat → t.mem.read x = s.mem.read x

/-- HL after an access through an `r16mem` operand (R75, R132, R133; D7, log 9). -/
def hlAfter (m : R16Mem) (hl : Word) : Word :=
  match m with
  | .bc | .de => hl
  | .hlInc => hl + 1
  | .hlDec => hl - 1

/-- The value of a block-2 operand when the one byte of the instruction has been fetched (R180). -/
def State.operandValue (s : State) : Operand8 → Byte
  | .reg r => s.getR8 r
  | .indirectHL => s.answer 1 s.hl

/-- The transactions of a block-2 operand (R180). -/
def State.operandReads (s : State) : Operand8 → List Transaction
  | .reg _ => []
  | .indirectHL => [.read s.hl (s.answer 1 s.hl)]

/-! ## Reading a history (R60) -/

/-- The array after a history that started from `m`, provided every read in it was answered by the
array of its moment; none if some read was not. -/
def replay : Memory → List Transaction → Option Memory
  | m, [] => some m
  | m, .read a v :: ts => if m.read a.toNat = v then replay m ts else none
  | m, .write a v :: ts => replay (m.write a.toNat v) ts

/-- The byte the last write to `addr` in a history put there, if there was one. -/
def lastWrite (addr : Word) : List Transaction → Option Byte
  | [] => none
  | .read _ _ :: ts => lastWrite addr ts
  | .write a v :: ts =>
    match lastWrite addr ts with
    | some w => some w
    | none => if a = addr then some v else none

/-- The closed form of R53, seen from `start`: no oracle, and the history accounts for memory. -/
def ClosedFrom (start : Memory) (s : State) : Prop :=
  s.answers = [] ∧ replay start s.bus = some s.mem

end Sys2Proof.Machine

namespace Sys2Proof

open Machine

/-! ## What an instruction touches -/

/-- The cells behind a 16-bit operand (R21, R74). -/
def R16.cells : R16 → List R8
  | .bc => [.b, .c]
  | .de => [.d, .e]
  | .hl => [.h, .l]
  | .sp => []

/-- The cells an `r16mem` operand updates (R75). -/
def R16Mem.cells : R16Mem → List R8
  | .bc | .de => []
  | .hlInc | .hlDec => [.h, .l]

/-- The addresses an instruction stores to, each by the expression its meaning uses (R51, R132,
R134, R151, R153, R155, R172). -/
def Instr.storedAddrs (s : State) : Instr → List Word
  | .ldR16memA m => [s.r16memAddr m]
  | .ldImm16SP nn => [nn, nn + 1]
  | .incHL | .decHL | .ldHLImm8 _ | .ldHLR8 _ => [s.hl]
  | .nop _ | .ldR16Imm16 _ _ | .ldAR16mem _ | .incR16 _ | .decR16 _ | .addHLR16 _ | .incR8 _
  | .decR8 _ | .ldR8Imm8 _ _ | .rlca | .rrca | .rla | .rra | .unimplemented18
  | .unimplemented27 | .unimplemented28 | .unimplemented2F | .unimplemented37 | .unimplemented38
  | .unimplemented3F | .ldR8R8 _ _ | .ldR8HL _ | .reservedHalt | .addA _ | .adcA _ | .subA _
  | .sbcA _ | .andA _ | .xorA _ | .orA _ | .cpA _ | .block3 _ => []

/-- The instructions that commit a flag: ADD, ADC, SUB, SBC, CP, AND, XOR, OR, INC and DEC of a
byte, ADD HL and the rotates. -/
def Instr.commitsFlags : Instr → Bool
  | .addHLR16 _ | .incR8 _ | .incHL | .decR8 _ | .decHL | .rlca | .rrca | .rla | .rra | .addA _
  | .adcA _ | .subA _ | .sbcA _ | .andA _ | .xorA _ | .orA _ | .cpA _ => true
  | .nop _ | .ldR16Imm16 _ _ | .ldR16memA _ | .ldAR16mem _ | .ldImm16SP _ | .incR16 _ | .decR16 _
  | .ldR8Imm8 _ _ | .ldHLImm8 _ | .unimplemented18 | .unimplemented27 | .unimplemented28
  | .unimplemented2F | .unimplemented37 | .unimplemented38 | .unimplemented3F | .ldR8R8 _ _
  | .ldR8HL _ | .ldHLR8 _ | .reservedHalt | .block3 _ => false

/-- The instructions that read Carry: ADC, SBC, RLA, RRA. -/
def Instr.readsCarry : Instr → Bool
  | .adcA _ | .sbcA _ | .rla | .rra => true
  | .nop _ | .ldR16Imm16 _ _ | .ldR16memA _ | .ldAR16mem _ | .ldImm16SP _ | .incR16 _ | .decR16 _
  | .addHLR16 _ | .incR8 _ | .incHL | .decR8 _ | .decHL | .ldR8Imm8 _ _ | .ldHLImm8 _ | .rlca
  | .rrca | .unimplemented18 | .unimplemented27 | .unimplemented28 | .unimplemented2F
  | .unimplemented37 | .unimplemented38 | .unimplemented3F | .ldR8R8 _ _ | .ldR8HL _ | .ldHLR8 _
  | .reservedHalt | .addA _ | .subA _ | .andA _ | .xorA _ | .orA _ | .cpA _ | .block3 _ => false

/-- The instructions whose destination is SP (R35): LD SP,imm16, INC SP, DEC SP. -/
def Instr.writesSP : Instr → Bool
  | .ldR16Imm16 dst _ | .incR16 dst | .decR16 dst => decide (dst = .sp)
  | .nop _ | .ldR16memA _ | .ldAR16mem _ | .ldImm16SP _ | .addHLR16 _ | .incR8 _ | .incHL | .decR8 _
  | .decHL | .ldR8Imm8 _ _ | .ldHLImm8 _ | .rlca | .rrca | .rla | .rra | .unimplemented18
  | .unimplemented27 | .unimplemented28 | .unimplemented2F | .unimplemented37 | .unimplemented38
  | .unimplemented3F | .ldR8R8 _ _ | .ldR8HL _ | .ldHLR8 _ | .reservedHalt | .addA _ | .adcA _
  | .subA _ | .sbcA _ | .andA _ | .xorA _ | .orA _ | .cpA _ | .block3 _ => false

end Sys2Proof
end

