-- ==== Sys2Proof/Certificates/Slice0/Obligations.lean ====
section
/-! DEFINITION. The statements for the provers. Each docstring names the rule of spec/ it
formalises; where a clause rests on a decision D<n> of spec/92_eei_decisions.md, which the spec
marks as its own choice, the docstring says so and names the log entry. The `encode` clauses of the
instruction statements go through an operand's index, whatever the order of the selector tables;
that order is `SelectorTablesAsDecided` alone (D1 and D2, logs 4 and 6). -/

open Sys2Proof Sys2Proof.Machine

/-! ## The Register File -/

/-- R38, R240: after construction every cell of the Register File is zero, and the first opcode is
fetched from address 0x0000. -/
def Obligations.ResetZeroesRegisterFile : Prop :=
  (∀ r, State.reset.getR8 r = 0x00) ∧
  State.reset.flags = { z := false, n := false, h := false, c := false } ∧
  State.reset.flags.toF = 0x00 ∧
  (∀ n, State.reset.getR16 n = 0x0000) ∧
  State.reset.sp = 0x0000 ∧ State.reset.pc = 0x0000 ∧
  (∃ b, State.reset.fetch8.2.bus = [.read 0x0000 b]) ∧
  ∀ s, (∀ r, (hostAct .construct s).getR8 r = 0x00) ∧
    (hostAct .construct s).flags = { z := false, n := false, h := false, c := false } ∧
    (hostAct .construct s).sp = 0x0000 ∧ (hostAct .construct s).pc = 0x0000 ∧
    (hostAct .construct s).mem = s.mem ∧ (hostAct .construct s).bus = s.bus

/-- R29: the names are the seven cells, neither F nor the sentinel among them; `get_register8` reads
the named cell, `set_register8` writes it and changes nothing else. -/
def Obligations.Register8AccessIsDirect : Prop :=
  ∀ (s : State) (r : R8) (v : Byte),
    r ∈ [R8.a, .b, .c, .d, .e, .h, .l] ∧
    (s.getR8 .a = s.a ∧ s.getR8 .b = s.b ∧ s.getR8 .c = s.c ∧ s.getR8 .d = s.d ∧
      s.getR8 .e = s.e ∧ s.getR8 .h = s.h ∧ s.getR8 .l = s.l) ∧
    (s.setR8 r v).getR8 r = v ∧ SameRegsBut [r] s (s.setR8 r v) ∧
    (s.setR8 r v).flags = s.flags ∧ (s.setR8 r v).sp = s.sp ∧ (s.setR8 r v).pc = s.pc ∧
    (s.setR8 r v).mem = s.mem ∧ (s.setR8 r v).answers = s.answers ∧ (s.setR8 r v).bus = s.bus

/-- R21: the pairs are views of their halves, the first-named half high; writing a pair writes both
halves and no other cell, and leaves SP, PC, memory and the port alone. For AF the low half is the
view F, said here without the order of its four flags. -/
def Obligations.PairsComposeFromHalves : Prop :=
  ∀ (s : State) (v : Word),
    (s.getR16 .bc).toNat = s.b.toNat * 256 + s.c.toNat ∧
    (s.getR16 .de).toNat = s.d.toNat * 256 + s.e.toNat ∧
    (s.getR16 .hl).toNat = s.h.toNat * 256 + s.l.toNat ∧
    (s.getR16 .af).toNat = s.a.toNat * 256 + s.flags.toF.toNat ∧
    ((s.setR16 .bc v).b.toNat = v.toNat / 256 ∧ (s.setR16 .bc v).c.toNat = v.toNat % 256 ∧
      s.setR16 .bc v = { s with b := (s.setR16 .bc v).b, c := (s.setR16 .bc v).c }) ∧
    ((s.setR16 .de v).d.toNat = v.toNat / 256 ∧ (s.setR16 .de v).e.toNat = v.toNat % 256 ∧
      s.setR16 .de v = { s with d := (s.setR16 .de v).d, e := (s.setR16 .de v).e }) ∧
    ((s.setR16 .hl v).h.toNat = v.toNat / 256 ∧ (s.setR16 .hl v).l.toNat = v.toNat % 256 ∧
      s.setR16 .hl v = { s with h := (s.setR16 .hl v).h, l := (s.setR16 .hl v).l }) ∧
    ((s.setR16 .af v).a.toNat = v.toNat / 256 ∧
      (s.setR16 .af v).flags.toF.toNat = v.toNat % 256 / 16 * 16 ∧
      s.setR16 .af v = { s with a := (s.setR16 .af v).a, flags := (s.setR16 .af v).flags }) ∧
    (s.setR16 .bc v).getR16 .bc = v ∧ (s.setR16 .de v).getR16 .de = v ∧
    (s.setR16 .hl v).getR16 .hl = v

/-- spec/10_state.md sections 1 and 2, get_register16 and set_register16: SP and PC pass through, AF
holds the flags in its bits 7 to 4, writing AF then reading it gives `v & 0xFFF0`, and writing AF,
SP or PC changes nothing else. That Z, N, H, C stand at bits
7, 6, 5, 4 is the spec's own decision D3 (log 5). -/
def Obligations.AfHoldsFlagsAtDecidedBits : Prop :=
  ∀ (s : State) (v : Word),
    (s.flags.toF.getLsbD 7 = s.flags.z ∧ s.flags.toF.getLsbD 6 = s.flags.n ∧
      s.flags.toF.getLsbD 5 = s.flags.h ∧ s.flags.toF.getLsbD 4 = s.flags.c ∧
      s.flags.toF.toNat % 16 = 0) ∧
    ((s.setR16 .af v).flags.z = v.getLsbD 7 ∧ (s.setR16 .af v).flags.n = v.getLsbD 6 ∧
      (s.setR16 .af v).flags.h = v.getLsbD 5 ∧ (s.setR16 .af v).flags.c = v.getLsbD 4) ∧
    (s.setR16 .af v).getR16 .af = v &&& 0xFFF0 ∧
    s.setR16 .af v = { s with a := (s.setR16 .af v).a, flags := (s.setR16 .af v).flags } ∧
    s.getR16 .sp = s.sp ∧ s.getR16 .pc = s.pc ∧
    s.setR16 .sp v = { s with sp := v } ∧ s.setR16 .pc v = { s with pc := v }

/-- R33: the masked commit takes each flag under the mask from the new flags, leaves every other
flag, and changes nothing but flags. -/
def Obligations.SetFlagsCommitsUnderMask : Prop :=
  ∀ (s : State) (new mask : Flags),
    (s.setFlags new mask).flags.z = (if mask.z = true then new.z else s.flags.z) ∧
    (s.setFlags new mask).flags.n = (if mask.n = true then new.n else s.flags.n) ∧
    (s.setFlags new mask).flags.h = (if mask.h = true then new.h else s.flags.h) ∧
    (s.setFlags new mask).flags.c = (if mask.c = true then new.c else s.flags.c) ∧
    s.setFlags new mask = { s with flags := (s.setFlags new mask).flags }

/-! ## The ALU -/

/-- R100: the sum mod 256 and its four flags. -/
def Obligations.AddWithCarryResultAndFlags : Prop :=
  ∀ (a b : Byte) (cin : Bool),
    (addC a b cin).result.toNat = (a.toNat + b.toNat + cin.toNat) % 256 ∧
    ((addC a b cin).flags.c = true ↔ a.toNat + b.toNat + cin.toNat > 255) ∧
    ((addC a b cin).flags.h = true ↔ a.toNat % 16 + b.toNat % 16 + cin.toNat > 0xF) ∧
    ((addC a b cin).flags.z = true ↔ (addC a b cin).result = 0) ∧
    (addC a b cin).flags.n = false

/-- spec/40_alu.md section 2, subtraction: the difference mod 256 and its four flags. That the two
right sides are untruncated integers is the spec's own decision D19 (log 11). -/
def Obligations.SubtractWithBorrowResultAndFlags : Prop :=
  ∀ (a b : Byte) (cin : Bool),
    ((subC a b cin).result.toNat : Int) = ((a.toNat : Int) - b.toNat - cin.toNat) % 256 ∧
    ((subC a b cin).flags.c = true ↔ a.toNat < b.toNat + cin.toNat) ∧
    ((subC a b cin).flags.h = true ↔ a.toNat % 16 < b.toNat % 16 + cin.toNat) ∧
    ((subC a b cin).flags.z = true ↔ (subC a b cin).result = 0) ∧
    (subC a b cin).flags.n = true

/-- R102, R103, R104: the three logic functions bit by bit, and the constants they force. -/
def Obligations.LogicResultsAndForcedFlags : Prop :=
  ∀ (a b : Byte),
    (∀ i, (aluAnd a b).result.getLsbD i = (a.getLsbD i && b.getLsbD i)) ∧
    (∀ i, (aluXor a b).result.getLsbD i = (a.getLsbD i ^^ b.getLsbD i)) ∧
    (∀ i, (aluOr a b).result.getLsbD i = (a.getLsbD i || b.getLsbD i)) ∧
    ((aluAnd a b).flags.z = true ↔ (aluAnd a b).result = 0) ∧
    ((aluXor a b).flags.z = true ↔ (aluXor a b).result = 0) ∧
    ((aluOr a b).flags.z = true ↔ (aluOr a b).result = 0) ∧
    ((aluAnd a b).flags.n = false ∧ (aluAnd a b).flags.h = true ∧ (aluAnd a b).flags.c = false) ∧
    ((aluXor a b).flags.n = false ∧ (aluXor a b).flags.h = false ∧ (aluXor a b).flags.c = false) ∧
    ((aluOr a b).flags.n = false ∧ (aluOr a b).flags.h = false ∧ (aluOr a b).flags.c = false)

/-- R105 to R108: each rotate bit by bit, its carry-out, and Zero, Subtract and HalfCarry forced to
0. -/
def Obligations.RotatesMoveEveryBit : Prop :=
  ∀ (a : Byte) (cin : Bool),
    (∀ i, i < 8 → (rlc a).result.getLsbD i = a.getLsbD ((i + 7) % 8)) ∧
    (∀ i, i < 8 → (rrc a).result.getLsbD i = a.getLsbD ((i + 1) % 8)) ∧
    (∀ i, i < 8 → (rl a cin).result.getLsbD i = if i = 0 then cin else a.getLsbD (i - 1)) ∧
    (∀ i, i < 8 → (rr a cin).result.getLsbD i = if i = 7 then cin else a.getLsbD (i + 1)) ∧
    (rlc a).flags = { z := false, n := false, h := false, c := a.getLsbD 7 } ∧
    (rrc a).flags = { z := false, n := false, h := false, c := a.getLsbD 0 } ∧
    (rl a cin).flags = { z := false, n := false, h := false, c := a.getLsbD 7 } ∧
    (rr a cin).flags = { z := false, n := false, h := false, c := a.getLsbD 0 }

/-- spec/40_alu.md section 6, laws of the rotates: eight left rotates restore the byte, right undoes
left, and the 9-bit rotates are inverse on the pair of byte and carry. -/
def Obligations.RotatesUndoEachOther : Prop :=
  ∀ (a : Byte) (cin : Bool),
    ((fun b => (rlc b).result)^[8]) a = a ∧
    (rrc (rlc a).result).result = a ∧ (rlc (rrc a).result).result = a ∧
    (rr (rl a cin).result (rl a cin).flags.c).result = a ∧
    (rr (rl a cin).result (rl a cin).flags.c).flags.c = cin

/-- spec/40_alu.md section 6, laws of addition and subtraction: subtracting undoes adding; SubC is
AddC of the complement with result equal and C and H complemented; H is the carry or borrow into
bit 4. It rests on decision D19 (log 11) at b = 0xFF with carry-in 1. -/
def Obligations.SubtractIsAddOfComplement : Prop :=
  ∀ (a b : Byte) (cin : Bool),
    (subC (addC a b false).result b false).result = a ∧
    (subC a b cin).result = (addC a (~~~b) (!cin)).result ∧
    (subC a b cin).flags.c = !(addC a (~~~b) (!cin)).flags.c ∧
    (subC a b cin).flags.h = !(addC a (~~~b) (!cin)).flags.h ∧
    (subC a b cin).flags.h = (a ^^^ b ^^^ (subC a b cin).result).getLsbD 4 ∧
    (addC a b cin).flags.h = (a ^^^ b ^^^ (addC a b cin).result).getLsbD 4

/-- spec/40_alu.md section 5 (the consequences of the chained add): `Add16` is addition mod 65536,
its C the carry out of bit 15 and its H the carry out of bit 11. -/
def Obligations.Add16CarriesOutOfBits15And11 : Prop :=
  ∀ v w : Word,
    let t := add16 (hiByte v) (loByte v) (hiByte w) (loByte w)
    (wordOf t.high t.low).toNat = (v.toNat + w.toNat) % 65536 ∧
    t.flags.n = false ∧
    (t.flags.c = true ↔ v.toNat + w.toNat > 0xFFFF) ∧
    (t.flags.h = true ↔ v.toNat % 4096 + w.toNat % 4096 > 0x0FFF)

/-! ## Memory and the MEM port -/

/-- spec/20_memory.md section 1, the closed form: a read gives the last byte written to that
address, and every other address keeps its byte. That a canonical form is kept is about the model's
own choice of form (log 1). -/
def Obligations.MemoryReadsLastWrite : Prop :=
  ∀ (m : Memory) (a : Word) (v : Byte), m.wf = true →
    (m.write a.toNat v).read a.toNat = v ∧
    (∀ x, x ≠ a.toNat → (m.write a.toNat v).read x = m.read x) ∧
    (m.write a.toNat v).wf = true

/-- The model's own choice of form (log 1), resting on spec/20_memory.md section 1: two memories in
canonical form that read alike at every address are equal. -/
def Obligations.MemoryFormIsCanonical : Prop :=
  ∀ m m' : Memory, m.wf = true → m'.wf = true → (∀ x, m.read x = m'.read x) → m = m'

/-- spec/20_memory.md section 1: one read is one transaction, answered by the array in the closed
form and by the oracle in the open form, and changes no register and no byte; one write is one
transaction and stores its byte. The queue of answers is the model's own (log 2). -/
def Obligations.PortMovesOneByte : Prop :=
  ∀ (s : State) (addr : Word) (v : Byte) (vs : List Byte),
    (s.answers = [] → (s.memRead addr).1 = s.mem.read addr.toNat ∧
      (s.memRead addr).2 = { s with bus := s.bus ++ [.read addr (s.mem.read addr.toNat)] }) ∧
    (s.answers = v :: vs → (s.memRead addr).1 = v ∧
      (s.memRead addr).2 = { s with answers := vs, bus := s.bus ++ [.read addr v] }) ∧
    s.memWrite addr v =
      { s with mem := s.mem.write addr.toNat v, bus := s.bus ++ [.write addr v] }

/-- R78, R79: a fetch reads the byte at PC and advances PC by 1 mod 65536; a 16-bit fetch is two of
them, the first byte the low half. -/
def Obligations.FetchReadsAtPcAndAdvances : Prop :=
  ∀ s : State,
    s.fetch8.1 = (s.memRead s.pc).1 ∧
    s.fetch8.2 = { (s.memRead s.pc).2 with pc := s.fetch8.2.pc } ∧
    s.fetch8.2.pc.toNat = (s.pc.toNat + 1) % 65536 ∧
    s.fetch16.1.toNat = s.fetch8.2.fetch8.1.toNat * 256 + s.fetch8.1.toNat ∧
    s.fetch16.2 = s.fetch8.2.fetch8.2 ∧
    s.fetch16.2.pc.toNat = (s.pc.toNat + 2) % 65536 ∧
    s.fetch16.2.bus = s.bus ++ [.read s.pc s.fetch8.1, .read s.fetch8.2.pc s.fetch8.2.fetch8.1]

/-! ## Decoding -/

/-- R70: the five fields of an opcode byte. -/
def Obligations.OpcodeFieldsByPosition : Prop :=
  ∀ o : Byte,
    (fieldX o).toNat = o.toNat / 64 ∧ (fieldY o).toNat = o.toNat / 8 % 8 ∧
    (fieldZ o).toNat = o.toNat % 8 ∧ (fieldP o).toNat = (fieldY o).toNat / 2 ∧
    (fieldQ o).toNat = (fieldY o).toNat % 2 ∧
    o.toNat = (fieldX o).toNat * 64 + (fieldY o).toNat * 8 + (fieldZ o).toNat

/-- spec/30_encoding.md section 2: the four selector tables. The order of `r8sel` at 1 to 5 is the
spec's own decision D1 (log 4), that of the other three its decision D2 (log 6). -/
def Obligations.SelectorTablesAsDecided : Prop :=
  [0, 1, 2, 3, 4, 5, 6, 7].map r8sel =
    [.reg .b, .reg .c, .reg .d, .reg .e, .reg .h, .reg .l, .indirectHL, .reg .a] ∧
  [0, 1, 2, 3].map r16sel = [.bc, .de, .hl, .sp] ∧
  [0, 1, 2, 3].map r16mem = [.bc, .de, .hlInc, .hlDec] ∧
  [0, 1, 2, 3].map r16stk = [.bc, .de, .hl, .af]

/-- spec/30_encoding.md section 4: a few words of the opcode map, one of each family, decode to
their instructions. The names of the operands C to L rest on the spec's own decision D1 (log 4), of
the pairs on D2 (log 6), and that 0x20 is a NOP on D4 (log 7). -/
def Obligations.SpecWordsDecode : Prop :=
  decodeTableWord 8 0x20 = some (.nop 2) ∧
  decodeTableWord 24 0x123421 = some (.ldR16Imm16 .hl 0x1234) ∧
  decodeTableWord 24 0xC10008 = some (.ldImm16SP 0xC100) ∧
  decodeTableWord 8 0x2A = some (.ldAR16mem .hlInc) ∧
  decodeTableWord 16 0x423E = some (.ldR8Imm8 .a 0x42) ∧
  decodeTableWord 8 0x1F = some .rra ∧
  decodeTableWord 8 0x53 = some (.ldR8R8 .d .e) ∧
  decodeTableWord 8 0x76 = some .reservedHalt ∧
  decodeTableWord 8 0x80 = some (.addA (.reg .b)) ∧
  decodeTableWord 8 0xBE = some (.cpA .indirectHL) ∧
  decodeTableWord 8 0x38 = some .unimplemented38 ∧
  decodeTableWord 8 0xC3 = some (.block3 0xC3)

/-- spec/30_encoding.md sections 3 and 4: decoding the bytes of any well-formed instruction gives it
back, with every operand, and leaves the bytes after it. -/
def Obligations.DecodeReadsBackEncode : Prop :=
  ∀ (i : Instr) (rest : List Byte), i.wellFormed = true → decode (encode i ++ rest) = .ok (i, rest)

/-- spec/30_encoding.md section 4: whatever decodes is the encoding of what it decodes to, which is
well formed, so every opcode has one meaning; and decoding fails only where the bytes run out. -/
def Obligations.EncodeGivesBackDecodedBytes : Prop :=
  (∀ (bytes : List Byte) (i : Instr) (rest : List Byte), decode bytes = .ok (i, rest) →
    i.wellFormed = true ∧ bytes = encode i ++ rest) ∧
  ∀ o b1 b2 : Byte, ∀ rest, ∃ i after, decode (o :: b1 :: b2 :: rest) = .ok (i, after)

/-- spec/30_encoding.md sections 3 and 5: 184 opcodes execute and 72 fault, 57, 63 and 64 of the
first in blocks 0, 1 and 2; the length of an instruction is 3, 2 or 1 by its opcode, and a faulting
opcode has none. The 4 NOP opcodes among the 184 rest on decision D4 (log 7). -/
def Obligations.OpcodeCountsAndLengths : Prop :=
  (let all := (List.range 256).map (BitVec.ofNat 8)
   let executes := all.filter fun o => (faultCause o).isNone
   executes.length = 184 ∧ all.length - executes.length = 72 ∧
   (executes.filter fun o => decide (fieldX o = 0)).length = 57 ∧
   (executes.filter fun o => decide (fieldX o = 1)).length = 63 ∧
   (executes.filter fun o => decide (fieldX o = 2)).length = 64) ∧
  ∀ o : Byte, opcodeLength o =
    if (faultCause o).isSome then none
    else if o ∈ [0x01, 0x11, 0x21, 0x31, 0x08] then some 3
    else if o ∈ [0x06, 0x0E, 0x16, 0x1E, 0x26, 0x2E, 0x36, 0x3E] then some 2
    else some 1

/-! ## Block 0: 16-bit (spec/42_block0_16bit.md)

Each statement says of `exec`, for every state: that it completes, the opcode bytes, what is
fetched and accessed on the MEM port, every register, flag and byte of memory. -/

/-- spec/42_block0_16bit.md, NOP: only PC moves. That p is free is decision D4 (log 7). -/
def Obligations.NopOnlyAdvancesPc : Prop :=
  ∀ (p : BitVec 2) (s : State), ∃ t, exec (.nop p) s = .next t ∧
    encode (.nop p) = [BitVec.ofNat 8 (0x10 * p.toNat)] ∧
    Took 1 [] s t ∧ SameRegsBut [] s t ∧ t.flags = s.flags ∧ t.sp = s.sp ∧ SameMem s t

/-- R131: LD r16,imm16. -/
def Obligations.LoadPairImmediate : Prop :=
  ∀ (dst : R16) (nn : Word) (s : State), ∃ t, exec (.ldR16Imm16 dst nn) s = .next t ∧
    encode (.ldR16Imm16 dst nn) =
      [BitVec.ofNat 8 (0x01 + 0x10 * dst.index.toNat), loByte nn, hiByte nn] ∧
    Took 3 [] s t ∧ t.getR16 dst.reg16 = nn ∧ SameRegsBut dst.cells s t ∧
    (dst ≠ .sp → t.sp = s.sp) ∧ t.flags = s.flags ∧ SameMem s t

/-- spec/42_block0_16bit.md, LD [r16mem],A: the store is at the old pair, HL changes after it. That
HL+1 and HL-1 wrap is decision D7 (log 9). -/
def Obligations.StoreAThroughPair : Prop :=
  ∀ (m : R16Mem) (s : State), ∃ t, exec (.ldR16memA m) s = .next t ∧
    encode (.ldR16memA m) = [BitVec.ofNat 8 (0x02 + 0x10 * m.index.toNat)] ∧
    s.r16memAddr m = (match m with
      | .bc => s.getR16 .bc
      | .de => s.getR16 .de
      | .hlInc | .hlDec => s.getR16 .hl) ∧
    Took 1 [.write (s.r16memAddr m) s.a] s t ∧
    (s.mem.wf = true → t.mem.read (s.r16memAddr m).toNat = s.a) ∧
    SameMemBut [s.r16memAddr m] s t ∧
    t.hl = hlAfter m s.hl ∧ SameRegsBut m.cells s t ∧ t.flags = s.flags ∧ t.sp = s.sp

/-- spec/42_block0_16bit.md, LD A,[r16mem]: the read is at the old pair, HL changes after it. That
HL+1 and HL-1 wrap is decision D7 (log 9). -/
def Obligations.LoadAThroughPair : Prop :=
  ∀ (m : R16Mem) (s : State), ∃ t, exec (.ldAR16mem m) s = .next t ∧
    encode (.ldAR16mem m) = [BitVec.ofNat 8 (0x0A + 0x10 * m.index.toNat)] ∧
    s.r16memAddr m = (match m with
      | .bc => s.getR16 .bc
      | .de => s.getR16 .de
      | .hlInc | .hlDec => s.getR16 .hl) ∧
    Took 1 [.read (s.r16memAddr m) (s.answer 1 (s.r16memAddr m))] s t ∧
    t.a = s.answer 1 (s.r16memAddr m) ∧
    t.hl = hlAfter m s.hl ∧ SameRegsBut (.a :: m.cells) s t ∧ t.flags = s.flags ∧ t.sp = s.sp ∧
    SameMem s t

/-- spec/42_block0_16bit.md, LD [imm16],SP: low byte at imm16, high byte at imm16+1. That imm16+1
wraps is decision D7 (log 9) and that the low byte is written first decision D8 (log 10). -/
def Obligations.StoreSpAtImmediate : Prop :=
  ∀ (nn : Word) (s : State), ∃ t, exec (.ldImm16SP nn) s = .next t ∧
    encode (.ldImm16SP nn) = [0x08, loByte nn, hiByte nn] ∧
    Took 3 [.write nn (loByte s.sp), .write (nn + 1) (hiByte s.sp)] s t ∧
    (s.mem.wf = true → t.mem.read nn.toNat = loByte s.sp ∧
      t.mem.read ((nn.toNat + 1) % 65536) = hiByte s.sp) ∧
    SameMemBut [nn, nn + 1] s t ∧
    SameRegsBut [] s t ∧ t.flags = s.flags ∧ t.sp = s.sp

/-- R135, R136: INC r16 and DEC r16 wrap and touch no flag. -/
def Obligations.StepPairWithoutFlags : Prop :=
  ∀ (dst : R16) (s : State),
    (∃ t, exec (.incR16 dst) s = .next t ∧
      encode (.incR16 dst) = [BitVec.ofNat 8 (0x03 + 0x10 * dst.index.toNat)] ∧
      Took 1 [] s t ∧
      (t.getR16 dst.reg16).toNat = ((s.getR16 dst.reg16).toNat + 1) % 65536 ∧
      SameRegsBut dst.cells s t ∧ (dst ≠ .sp → t.sp = s.sp) ∧ t.flags = s.flags ∧ SameMem s t) ∧
    (∃ t, exec (.decR16 dst) s = .next t ∧
      encode (.decR16 dst) = [BitVec.ofNat 8 (0x0B + 0x10 * dst.index.toNat)] ∧
      Took 1 [] s t ∧
      (t.getR16 dst.reg16).toNat = ((s.getR16 dst.reg16).toNat + 65535) % 65536 ∧
      SameRegsBut dst.cells s t ∧ (dst ≠ .sp → t.sp = s.sp) ∧ t.flags = s.flags ∧ SameMem s t)

/-- R137: ADD HL,r16: the 16-bit sum, Z kept, N 0, H the carry out of bit 11, C out of bit 15. -/
def Obligations.AddPairToHl : Prop :=
  ∀ (w : R16) (s : State), ∃ t, exec (.addHLR16 w) s = .next t ∧
    encode (.addHLR16 w) = [BitVec.ofNat 8 (0x09 + 0x10 * w.index.toNat)] ∧
    Took 1 [] s t ∧
    t.hl.toNat = (s.hl.toNat + (s.getR16 w.reg16).toNat) % 65536 ∧
    t.flags.z = s.flags.z ∧ t.flags.n = false ∧
    (t.flags.h = true ↔ s.hl.toNat % 4096 + (s.getR16 w.reg16).toNat % 4096 > 0x0FFF) ∧
    (t.flags.c = true ↔ s.hl.toNat + (s.getR16 w.reg16).toNat > 0xFFFF) ∧
    SameRegsBut [.h, .l] s t ∧ t.sp = s.sp ∧ SameMem s t

/-! ## Block 0: 8-bit (spec/43_block0_8bit.md) -/

/-- R150, R152: INC r8 and DEC r8: the byte mod 256, Z, N, H from it, C kept. -/
def Obligations.StepByteRegister : Prop :=
  ∀ (r : R8) (s : State),
    (∃ t, exec (.incR8 r) s = .next t ∧
      encode (.incR8 r) = [BitVec.ofNat 8 (0x04 + 0x08 * r.index.toNat)] ∧
      Took 1 [] s t ∧ (t.getR8 r).toNat = ((s.getR8 r).toNat + 1) % 256 ∧
      t.flags = { z := decide (s.getR8 r = 0xFF), n := false,
                  h := decide ((s.getR8 r).toNat % 16 = 0xF), c := s.flags.c } ∧
      SameRegsBut [r] s t ∧ t.sp = s.sp ∧ SameMem s t) ∧
    (∃ t, exec (.decR8 r) s = .next t ∧
      encode (.decR8 r) = [BitVec.ofNat 8 (0x05 + 0x08 * r.index.toNat)] ∧
      Took 1 [] s t ∧ (t.getR8 r).toNat = ((s.getR8 r).toNat + 255) % 256 ∧
      t.flags = { z := decide (s.getR8 r = 0x01), n := true,
                  h := decide ((s.getR8 r).toNat % 16 = 0), c := s.flags.c } ∧
      SameRegsBut [r] s t ∧ t.sp = s.sp ∧ SameMem s t)

/-- R151, R153: INC [HL] and DEC [HL]: read then write at HL, flags as the register forms, no
register but PC changed. -/
def Obligations.StepByteInMemory : Prop :=
  ∀ s : State, let v := s.answer 1 s.hl
    (∃ t, exec .incHL s = .next t ∧ encode .incHL = [0x34] ∧
      Took 1 [.read s.hl v, .write s.hl (BitVec.ofNat 8 (v.toNat + 1))] s t ∧
      (s.mem.wf = true → (t.mem.read s.hl.toNat).toNat = (v.toNat + 1) % 256) ∧
      SameMemBut [s.hl] s t ∧
      t.flags = { z := decide (v = 0xFF), n := false, h := decide (v.toNat % 16 = 0xF),
                  c := s.flags.c } ∧
      SameRegsBut [] s t ∧ t.sp = s.sp) ∧
    (∃ t, exec .decHL s = .next t ∧ encode .decHL = [0x35] ∧
      Took 1 [.read s.hl v, .write s.hl (BitVec.ofNat 8 (v.toNat + 255))] s t ∧
      (s.mem.wf = true → (t.mem.read s.hl.toNat).toNat = (v.toNat + 255) % 256) ∧
      SameMemBut [s.hl] s t ∧
      t.flags = { z := decide (v = 0x01), n := true, h := decide (v.toNat % 16 = 0),
                  c := s.flags.c } ∧
      SameRegsBut [] s t ∧ t.sp = s.sp)

/-- R154: LD r8,imm8. -/
def Obligations.LoadByteImmediate : Prop :=
  ∀ (dst : R8) (n : Byte) (s : State), ∃ t, exec (.ldR8Imm8 dst n) s = .next t ∧
    encode (.ldR8Imm8 dst n) = [BitVec.ofNat 8 (0x06 + 0x08 * dst.index.toNat), n] ∧
    Took 2 [] s t ∧ t.getR8 dst = n ∧ SameRegsBut [dst] s t ∧ t.flags = s.flags ∧ t.sp = s.sp ∧
    SameMem s t

/-- R155: LD [HL],imm8: one write at HL, no read there. -/
def Obligations.StoreByteImmediate : Prop :=
  ∀ (n : Byte) (s : State), ∃ t, exec (.ldHLImm8 n) s = .next t ∧
    encode (.ldHLImm8 n) = [0x36, n] ∧
    Took 2 [.write s.hl n] s t ∧
    (s.mem.wf = true → t.mem.read s.hl.toNat = n) ∧ SameMemBut [s.hl] s t ∧
    SameRegsBut [] s t ∧ t.flags = s.flags ∧ t.sp = s.sp

/-- R156, R157: RLCA and RRCA: the circular rotates of A, Z, N and H forced to 0. -/
def Obligations.RotateACircular : Prop :=
  ∀ s : State,
    (∃ t, exec .rlca s = .next t ∧ encode .rlca = [0x07] ∧ Took 1 [] s t ∧
      t.a.toNat = s.a.toNat * 2 % 256 + s.a.toNat / 128 ∧
      t.flags = { z := false, n := false, h := false, c := s.a.getLsbD 7 } ∧
      SameRegsBut [.a] s t ∧ t.sp = s.sp ∧ SameMem s t) ∧
    (∃ t, exec .rrca s = .next t ∧ encode .rrca = [0x0F] ∧ Took 1 [] s t ∧
      t.a.toNat = s.a.toNat / 2 + s.a.toNat % 2 * 128 ∧
      t.flags = { z := false, n := false, h := false, c := s.a.getLsbD 0 } ∧
      SameRegsBut [.a] s t ∧ t.sp = s.sp ∧ SameMem s t)

/-- R158, R159: RLA and RRA: the rotates of A through Carry, Z, N and H forced to 0. -/
def Obligations.RotateAThroughCarry : Prop :=
  ∀ s : State,
    (∃ t, exec .rla s = .next t ∧ encode .rla = [0x17] ∧ Took 1 [] s t ∧
      t.a.toNat = s.a.toNat * 2 % 256 + s.flags.c.toNat ∧
      t.flags = { z := false, n := false, h := false, c := s.a.getLsbD 7 } ∧
      SameRegsBut [.a] s t ∧ t.sp = s.sp ∧ SameMem s t) ∧
    (∃ t, exec .rra s = .next t ∧ encode .rra = [0x1F] ∧ Took 1 [] s t ∧
      t.a.toNat = s.a.toNat / 2 + s.flags.c.toNat * 128 ∧
      t.flags = { z := false, n := false, h := false, c := s.a.getLsbD 0 } ∧
      SameRegsBut [.a] s t ∧ t.sp = s.sp ∧ SameMem s t)

/-! ## Block 1 (spec/44_block1_moves.md) -/

/-- R170: LD r8,r8. -/
def Obligations.MoveRegisterToRegister : Prop :=
  ∀ (dst src : R8) (s : State), ∃ t, exec (.ldR8R8 dst src) s = .next t ∧
    encode (.ldR8R8 dst src) =
      [BitVec.ofNat 8 (0x40 + 0x08 * dst.index.toNat + src.index.toNat)] ∧
    Took 1 [] s t ∧ t.getR8 dst = s.getR8 src ∧ SameRegsBut [dst] s t ∧ t.flags = s.flags ∧
    t.sp = s.sp ∧ SameMem s t

/-- R171: LD r8,[HL]: the read is at the old HL. -/
def Obligations.MoveMemoryToRegister : Prop :=
  ∀ (dst : R8) (s : State), ∃ t, exec (.ldR8HL dst) s = .next t ∧
    encode (.ldR8HL dst) = [BitVec.ofNat 8 (0x46 + 0x08 * dst.index.toNat)] ∧
    Took 1 [.read s.hl (s.answer 1 s.hl)] s t ∧ t.getR8 dst = s.answer 1 s.hl ∧
    SameRegsBut [dst] s t ∧ t.flags = s.flags ∧ t.sp = s.sp ∧ SameMem s t

/-- R172: LD [HL],r8: one write at HL, no register changed. -/
def Obligations.MoveRegisterToMemory : Prop :=
  ∀ (src : R8) (s : State), ∃ t, exec (.ldHLR8 src) s = .next t ∧
    encode (.ldHLR8 src) = [BitVec.ofNat 8 (0x70 + src.index.toNat)] ∧
    Took 1 [.write s.hl (s.getR8 src)] s t ∧
    (s.mem.wf = true → t.mem.read s.hl.toNat = s.getR8 src) ∧ SameMemBut [s.hl] s t ∧
    SameRegsBut [] s t ∧ t.flags = s.flags ∧ t.sp = s.sp

/-! ## Block 2 (spec/45_block2_alu.md) -/

/-- R181, R182: ADD and ADC: A and all four flags; only ADC counts the old Carry. -/
def Obligations.AddOperandToA : Prop :=
  ∀ (o : Operand8) (s : State), let v := s.operandValue o
    (∃ t, exec (.addA o) s = .next t ∧
      encode (.addA o) = [BitVec.ofNat 8 (0x80 + o.index.toNat)] ∧
      Took 1 (s.operandReads o) s t ∧ t.a.toNat = (s.a.toNat + v.toNat) % 256 ∧
      t.flags = { z := decide ((s.a.toNat + v.toNat) % 256 = 0), n := false,
                  h := decide (s.a.toNat % 16 + v.toNat % 16 > 0xF),
                  c := decide (s.a.toNat + v.toNat > 255) } ∧
      SameRegsBut [.a] s t ∧ t.sp = s.sp ∧ SameMem s t) ∧
    (∃ t, exec (.adcA o) s = .next t ∧
      encode (.adcA o) = [BitVec.ofNat 8 (0x88 + o.index.toNat)] ∧
      Took 1 (s.operandReads o) s t ∧
      t.a.toNat = (s.a.toNat + v.toNat + s.flags.c.toNat) % 256 ∧
      t.flags = { z := decide ((s.a.toNat + v.toNat + s.flags.c.toNat) % 256 = 0), n := false,
                  h := decide (s.a.toNat % 16 + v.toNat % 16 + s.flags.c.toNat > 0xF),
                  c := decide (s.a.toNat + v.toNat + s.flags.c.toNat > 255) } ∧
      SameRegsBut [.a] s t ∧ t.sp = s.sp ∧ SameMem s t)

/-- R183: SUB. -/
def Obligations.SubtractOperandFromA : Prop :=
  ∀ (o : Operand8) (s : State), let v := s.operandValue o
    ∃ t, exec (.subA o) s = .next t ∧
      encode (.subA o) = [BitVec.ofNat 8 (0x90 + o.index.toNat)] ∧
      Took 1 (s.operandReads o) s t ∧ (t.a.toNat : Int) = ((s.a.toNat : Int) - v.toNat) % 256 ∧
      t.flags = { z := decide (s.a = v), n := true,
                  h := decide (s.a.toNat % 16 < v.toNat % 16), c := decide (s.a.toNat < v.toNat) } ∧
      SameRegsBut [.a] s t ∧ t.sp = s.sp ∧ SameMem s t

/-- spec/45_block2_alu.md, SBC: the old Carry is subtracted too. That `v + F.C` is not truncated in
the comparisons is decision D19 (log 11). -/
def Obligations.SubtractOperandAndBorrowFromA : Prop :=
  ∀ (o : Operand8) (s : State), let v := s.operandValue o
    ∃ t, exec (.sbcA o) s = .next t ∧
      encode (.sbcA o) = [BitVec.ofNat 8 (0x98 + o.index.toNat)] ∧
      Took 1 (s.operandReads o) s t ∧
      (t.a.toNat : Int) = ((s.a.toNat : Int) - v.toNat - s.flags.c.toNat) % 256 ∧
      t.flags = { z := decide (((s.a.toNat : Int) - v.toNat - s.flags.c.toNat) % 256 = 0),
                  n := true,
                  h := decide (s.a.toNat % 16 < v.toNat % 16 + s.flags.c.toNat),
                  c := decide (s.a.toNat < v.toNat + s.flags.c.toNat) } ∧
      SameRegsBut [.a] s t ∧ t.sp = s.sp ∧ SameMem s t

/-- R185, R186, R187: AND, XOR and OR: A, Z from it, N 0, C 0, and H 1 for AND only. -/
def Obligations.LogicOperandIntoA : Prop :=
  ∀ (o : Operand8) (s : State), let v := s.operandValue o
    (∃ t, exec (.andA o) s = .next t ∧
      encode (.andA o) = [BitVec.ofNat 8 (0xA0 + o.index.toNat)] ∧
      Took 1 (s.operandReads o) s t ∧ t.a = s.a &&& v ∧
      t.flags = { z := decide (t.a = 0), n := false, h := true, c := false } ∧
      SameRegsBut [.a] s t ∧ t.sp = s.sp ∧ SameMem s t) ∧
    (∃ t, exec (.xorA o) s = .next t ∧
      encode (.xorA o) = [BitVec.ofNat 8 (0xA8 + o.index.toNat)] ∧
      Took 1 (s.operandReads o) s t ∧ t.a = s.a ^^^ v ∧
      t.flags = { z := decide (t.a = 0), n := false, h := false, c := false } ∧
      SameRegsBut [.a] s t ∧ t.sp = s.sp ∧ SameMem s t) ∧
    (∃ t, exec (.orA o) s = .next t ∧
      encode (.orA o) = [BitVec.ofNat 8 (0xB0 + o.index.toNat)] ∧
      Took 1 (s.operandReads o) s t ∧ t.a = s.a ||| v ∧
      t.flags = { z := decide (t.a = 0), n := false, h := false, c := false } ∧
      SameRegsBut [.a] s t ∧ t.sp = s.sp ∧ SameMem s t)

/-- R188: CP: the flags of SUB, and no register written but PC. -/
def Obligations.CompareOperandWithA : Prop :=
  ∀ (o : Operand8) (s : State), let v := s.operandValue o
    ∃ t, exec (.cpA o) s = .next t ∧
      encode (.cpA o) = [BitVec.ofNat 8 (0xB8 + o.index.toNat)] ∧
      Took 1 (s.operandReads o) s t ∧
      t.flags = { z := decide (s.a = v), n := true,
                  h := decide (s.a.toNat % 16 < v.toNat % 16), c := decide (s.a.toNat < v.toNat) } ∧
      SameRegsBut [] s t ∧ t.sp = s.sp ∧ SameMem s t

/-! ## The encodings with no instruction -/

/-- spec/44_block1_moves.md (0x76) and spec/46_unimplemented.md (block 3 and the seven block-0
opcodes): each raises `Fault(opcode, pc0)` in every state, having read its own opcode and no more.
That nothing else of the state has changed, PC included, is decision D5 (log 8). -/
def Obligations.UnimplementedOpcodesRaise : Prop :=
  ∀ s : State,
    (exec .reservedHalt s = .fault (.unimplemented 0x76 s.pc s.afterFailure) ∧
      encode .reservedHalt = [0x76]) ∧
    (exec .unimplemented18 s = .fault (.unimplemented 0x18 s.pc s.afterFailure) ∧
      encode .unimplemented18 = [0x18]) ∧
    (exec .unimplemented27 s = .fault (.unimplemented 0x27 s.pc s.afterFailure) ∧
      encode .unimplemented27 = [0x27]) ∧
    (exec .unimplemented28 s = .fault (.unimplemented 0x28 s.pc s.afterFailure) ∧
      encode .unimplemented28 = [0x28]) ∧
    (exec .unimplemented2F s = .fault (.unimplemented 0x2F s.pc s.afterFailure) ∧
      encode .unimplemented2F = [0x2F]) ∧
    (exec .unimplemented37 s = .fault (.unimplemented 0x37 s.pc s.afterFailure) ∧
      encode .unimplemented37 = [0x37]) ∧
    (exec .unimplemented38 s = .fault (.unimplemented 0x38 s.pc s.afterFailure) ∧
      encode .unimplemented38 = [0x38]) ∧
    (exec .unimplemented3F s = .fault (.unimplemented 0x3F s.pc s.afterFailure) ∧
      encode .unimplemented3F = [0x3F]) ∧
    ∀ o : Byte, exec (.block3 o) s = .fault (.unimplemented o s.pc s.afterFailure) ∧
      encode (.block3 o) = [o]

/-! ## The step -/

/-- spec/41_engine_step.md: a step runs the instruction whose bytes stand at PC, whether the port's
answers are the array's or the oracle's. -/
def Obligations.StepRunsTheInstructionAtPc : Prop :=
  (∀ (s : State) (i : Instr) (rest : List Byte),
    decode [s.fetchedByte 0, s.fetchedByte 1, s.fetchedByte 2] = .ok (i, rest) →
    step s = exec i s) ∧
  ∀ (s : State) (i : Instr), i.wellFormed = true → s.answers = [] →
    (∀ k, k < (encode i).length →
      (encode i)[k]? = some (s.mem.read ((s.pc.toNat + k) % 65536))) →
    step s = exec i s

/-- spec/60_exceptions.md section 1 and spec/41_engine_step.md, a failed step: the condition is
raised when, and only when, the fetched opcode is one of 72 byte values; it carries the opcode and
the address it was fetched from; and the failed step has made one transaction, the read of that
opcode, and changed nothing else. That 0x10, 0x20 and 0x30 are not among the 72 is decision D4 (log 7), the
labels are D13 (log 17), and that PC is left as it was is D5 (log 8). -/
def Obligations.FaultExactlyOnUnimplementedOpcodes : Prop :=
  (∀ o : Byte, (faultCause o = some .block3 ↔ 0xC0 ≤ o.toNat) ∧
    (faultCause o = some .reservedHalt ↔ o = 0x76) ∧
    (faultCause o = some .block0Uncovered ↔
      o ∈ [0x18, 0x27, 0x28, 0x2F, 0x37, 0x38, (0x3F : Byte)])) ∧
  ∀ s : State,
    ((∃ r, step s = .fault r) ↔ faultCause (s.fetchedByte 0) ≠ none) ∧
    ∀ r, step s = .fault r → r = .unimplemented (s.fetchedByte 0) s.pc s.afterFailure

/-- spec/41_engine_step.md, outcomes, and spec/20_memory.md section 3, no memory fault: each of the
184 other opcodes completes in every state, and no step is refused. That 0x10, 0x20 and 0x30 are
among the 184 is decision D4 (log 7). -/
def Obligations.ImplementedOpcodesComplete : Prop :=
  ∀ s : State,
    ((∃ t, step s = .next t) ↔ faultCause (s.fetchedByte 0) = none) ∧
    ∀ r, step s ≠ .refused r

/-- spec/10_state.md and spec/46_unimplemented.md: execution is sequential. After a completed step
PC is the old PC plus the length of the instruction, mod 65536. That 0x10, 0x20 and 0x30 are one byte
long is decision D4 (log 7). -/
def Obligations.PcAdvancesByLength : Prop :=
  ∀ s t : State, step s = .next t →
    ∃ n, opcodeLength (s.fetchedByte 0) = some n ∧ t.pc.toNat = (s.pc.toNat + n) % 65536

/-- spec/20_memory.md sections 2 and 4: the transactions of a completed step are its fetches, then
at most one data read, then at most two data writes, at most five in all; those of a failed step are
the read of its opcode, answered once; earlier history is kept. The order is decision D8 (log 10)
where the document does not state it, the failed step's one read is D5 (log 8), and the length of
0x10, 0x20 and 0x30 is D4 (log 7). -/
def Obligations.StepTransactionsFetchesReadsWrites : Prop :=
  (∀ (s : State) (r : Fault), step s = .fault r →
    r.after.bus = s.bus ++ s.fetchReads 1 ∧ r.after.answers = s.answers.drop 1) ∧
  ∀ s t : State, step s = .next t →
    ∃ n reads writes, opcodeLength (s.fetchedByte 0) = some n ∧
      t.bus = s.bus ++ s.fetchReads n ++ reads ++ writes ∧
      (∀ x ∈ reads, x.isRead = true) ∧ (∀ x ∈ writes, x.isRead = false) ∧
      reads.length ≤ 1 ∧ writes.length ≤ 2 ∧ n + reads.length + writes.length ≤ 5

/-- spec/20_memory.md section 1: the addresses an instruction writes on the port are exactly its
stored addresses, in order, and no other byte of memory changes. For LD [imm16],SP the order rests
on decision D8 (log 10, the low byte first) and the second address on D7 (log 9, imm16+1 wraps). -/
def Obligations.OnlyStoredAddressesChange : Prop :=
  ∀ (i : Instr) (s t : State), exec i s = .next t →
    SameMemBut (i.storedAddrs s) s t ∧
    ((newTransactions s t).filter fun x => !x.isRead).map Transaction.addr = i.storedAddrs s

/-- spec/10_state.md section 3 (the two tables of who writes what): an instruction outside the
flag-committing ones leaves all four flags, one outside LD SP, INC SP and DEC SP leaves SP, and no
instruction uses SP as an address: with another SP the same addresses are accessed. -/
def Obligations.FlagsAndSpWrittenOnlyByTheirInstructions : Prop :=
  ∀ (i : Instr) (s t : State), exec i s = .next t →
    (i.commitsFlags = false → t.flags = s.flags) ∧
    (i.writesSP = false → t.sp = s.sp) ∧
    ∀ (v : Word) (t' : State), exec i { s with sp := v } = .next t' →
      (newTransactions { s with sp := v } t').map Transaction.addr =
        (newTransactions s t).map Transaction.addr

/-! ## Invariants and whole-machine rules -/

/-- The reset state meets both invariants below: memory in canonical form (log 1) and a history
that accounts for memory (logs 2 and 3). -/
def Obligations.ResetMeetsInvariants : Prop :=
  State.reset.Inv ∧ ClosedFrom [] State.reset

/-- The model's own invariant (log 1): every step, completed or failed, keeps memory in canonical
form. -/
def Obligations.StepKeepsMemoryCanonical : Prop :=
  ∀ s t : State, s.Inv → Leaves s t → t.Inv

/-- The model's own invariant (log 1), for what the outside does between steps. -/
def Obligations.HostActsKeepMemoryCanonical : Prop :=
  ∀ (act : HostAct) (s : State), s.Inv → (hostAct act s).Inv

/-- spec/20_memory.md section 4, sequential consistency of the closed form: every step, completed
or failed, keeps the history one in which each read was answered by the array of its moment and
whose writes give the present memory. -/
def Obligations.StepKeepsHistoryConsistent : Prop :=
  ∀ (start : Memory) (s t : State), ClosedFrom start s → Leaves s t → ClosedFrom start t

/-- spec/20_memory.md section 4: in a consistent history a read returns the byte of the latest
earlier write to that address, or the initial byte if there was none. -/
def Obligations.ReadReturnsLatestEarlierWrite : Prop :=
  ∀ (start m : Memory) (before after : List Transaction) (a : Word) (v : Byte),
    start.wf = true → replay start (before ++ .read a v :: after) = some m →
    v = (lastWrite a before).getD (start.read a.toNat)

/-- spec/10_state.md section 2: no instruction reads Zero, Subtract or HalfCarry. Two states that
differ only in those take steps with the same outcome, whose states differ only in those. -/
def Obligations.ZeroSubtractHalfCarryAreNeverRead : Prop :=
  ∀ (s : State) (z n h : Bool),
    match step s, step { s with flags := { z := z, n := n, h := h, c := s.flags.c } } with
    | .next t, .next t' =>
      t' = { t with flags := { z := t'.flags.z, n := t'.flags.n, h := t'.flags.h, c := t.flags.c } }
    | .fault r, .fault r' =>
      r.opcode = r'.opcode ∧ r.pc = r'.pc ∧ r'.after = { r.after with flags := r'.after.flags } ∧
        r'.after.flags = { z := z, n := n, h := h, c := r.after.flags.c }
    | _, _ => False

/-- spec/10_state.md section 3: only ADC, SBC, RLA and RRA read Carry. For any other instruction two
states that differ only in Carry give states that differ at most in Carry. -/
def Obligations.CarryReadOnlyByFourInstructions : Prop :=
  ∀ (i : Instr) (s : State) (c : Bool), i.readsCarry = false →
    match exec i s, exec i { s with flags := { s.flags with c := c } } with
    | .next t, .next t' => t' = { t with flags := { t.flags with c := t'.flags.c } }
    | .fault r, .fault r' =>
      r.opcode = r'.opcode ∧ r.pc = r'.pc ∧
        r'.after = { r.after with flags := { r.after.flags with c := c } }
    | _, _ => False

/-- spec/20_memory.md section 4, fetch coherence: in the closed form a byte that LD [HL],r8 stores
just after itself is the opcode the very next step fetches and runs. -/
def Obligations.StoredOpcodeIsFetchedNext : Prop :=
  ∀ (s t : State) (src : R8), s.Inv → s.answers = [] → s.hl = s.pc + 1 →
    exec (.ldHLR8 src) s = .next t →
    t.fetchedByte 0 = s.getR8 src ∧
    ∀ i : Instr, i.wellFormed = true → encode i = [s.getR8 src] → step t = exec i t

/-- spec/41_engine_step.md, after a fault: the core holds no fault latch and cannot recover by
itself. A step that faults faults again with the same opcode and PC after any act of the outside that
leaves PC, memory and the oracle's answers alone, whatever register, flag or SP it writes; and in the
closed form the state a failed step leaves faults again the same way, reading the opcode once more.
That the state after a failure is the state before it is decision D5 (log 8). -/
def Obligations.FaultRecurs : Prop :=
  ∀ (s : State) (r : Fault), step s = .fault r →
    (∀ act : HostAct, (hostAct act s).pc = s.pc → (hostAct act s).mem = s.mem →
      (hostAct act s).answers = s.answers →
      step (hostAct act s) = .fault (.unimplemented r.opcode r.pc (hostAct act s).afterFailure)) ∧
    (s.answers = [] →
      step r.after = .fault (.unimplemented r.opcode r.pc
        { s with bus := s.bus ++ [.read r.pc r.opcode, .read r.pc r.opcode] }))
end

