-- ==== Sys2Proof/Laws/Decode.lean ====
section
/-! SUPPORT. The laws of the Decoder's helpers: halves of a word, fields of a built opcode, and the
selector tables against their indexes. -/

namespace Sys2Proof

theorem hiByte_toNat (w : Word) : (hiByte w).toNat = w.toNat / 256 := by
  simp only [hiByte, BitVec.extractLsb'_toNat, Nat.shiftRight_eq_div_pow]
  have := w.isLt
  omega

theorem loByte_toNat (w : Word) : (loByte w).toNat = w.toNat % 256 := by
  simp [loByte, BitVec.extractLsb'_toNat]

theorem wordOf_toNat (high low : Byte) : (wordOf high low).toNat = high.toNat * 256 + low.toNat := by
  simp only [wordOf, BitVec.toNat_append, Nat.shiftLeft_eq]
  rw [Nat.mul_comm, ← Nat.two_pow_add_eq_or_of_lt low.isLt, Nat.mul_comm]

@[simp] theorem wordOf_hiByte_loByte (w : Word) : wordOf (hiByte w) (loByte w) = w := by
  apply BitVec.eq_of_toNat_eq
  rw [wordOf_toNat, hiByte_toNat, loByte_toNat]
  omega

@[simp] theorem hiByte_wordOf (high low : Byte) : hiByte (wordOf high low) = high := by
  apply BitVec.eq_of_toNat_eq
  have := low.isLt
  rw [hiByte_toNat, wordOf_toNat]
  omega

@[simp] theorem loByte_wordOf (high low : Byte) : loByte (wordOf high low) = low := by
  apply BitVec.eq_of_toNat_eq
  have := low.isLt
  rw [loByte_toNat, wordOf_toNat]
  omega

@[simp] theorem r8sel_index (o : Operand8) : r8sel o.index = o := by
  cases o with
  | reg r => cases r <;> rfl
  | indirectHL => rfl

@[simp] theorem r16sel_index (w : R16) : r16sel w.index = w := by cases w <;> rfl

@[simp] theorem r16mem_index (m : R16Mem) : r16mem m.index = m := by cases m <;> rfl

@[simp] theorem index_r8sel (i : BitVec 3) : (r8sel i).index = i := by revert i; decide

@[simp] theorem index_r16sel (p : BitVec 2) : (r16sel p).index = p := by revert p; decide

@[simp] theorem index_r16mem (p : BitVec 2) : (r16mem p).index = p := by revert p; decide

@[simp] theorem encode_ne_nil (i : Instr) : encode i ≠ [] := by simp [encode]

end Sys2Proof
end

