-- ==== Sys2Proof/Laws/Alu.lean ====
section
/-! SUPPORT. The laws of the ALU that later proofs cite instead of unfolding it. -/

namespace Sys2Proof.Machine

theorem addC_result_toNat (a b : Byte) (cin : Bool) :
    (addC a b cin).result.toNat = (a.toNat + b.toNat + cin.toNat) % 256 := by
  simp [addC, BitVec.toNat_ofNat]

theorem subC_result_toInt (a b : Byte) (cin : Bool) :
    ((subC a b cin).result.toNat : Int) = ((a.toNat : Int) - b.toNat - cin.toNat) % 256 := by
  simp only [subC, BitVec.toNat_ofInt]
  omega

/-- Subtraction as a case split on the borrow. -/
theorem subC_result_toNat (a b : Byte) (cin : Bool) :
    (subC a b cin).result.toNat =
      if a.toNat < b.toNat + cin.toNat then a.toNat + 256 - b.toNat - cin.toNat
      else a.toNat - b.toNat - cin.toNat := by
  have h := subC_result_toInt a b cin
  have := a.isLt
  have := b.isLt
  cases cin <;> simp only [Bool.toNat_true, Bool.toNat_false] at h ⊢ <;> split <;> omega

theorem aluInc_result (v : Byte) : (aluInc v).result = BitVec.ofNat 8 (v.toNat + 1) := by
  apply BitVec.eq_of_toNat_eq; simp [aluInc, addC_result_toNat]

theorem aluDec_result (v : Byte) : (aluDec v).result = BitVec.ofNat 8 (v.toNat + 255) := by
  apply BitVec.eq_of_toNat_eq
  have h := subC_result_toNat v 1 false
  have := v.isLt
  simp only [aluDec, h, BitVec.toNat_ofNat, Bool.toNat_false, show (1 : Byte).toNat = 1 from rfl]
  split <;> omega

/-- The flags of an increment but Carry, which no instruction commits (R110). -/
theorem aluInc_flags (v : Byte) :
    (aluInc v).flags.z = decide (v = 0xFF) ∧ (aluInc v).flags.n = false ∧
    (aluInc v).flags.h = decide (v.toNat % 16 = 0xF) := by
  revert v; decide

/-- The flags of a decrement but Carry, which no instruction commits (R110). -/
theorem aluDec_flags (v : Byte) :
    (aluDec v).flags.z = decide (v = 0x01) ∧ (aluDec v).flags.n = true ∧
    (aluDec v).flags.h = decide (v.toNat % 16 = 0) := by
  revert v; decide

@[simp] theorem rotated_result (v : Byte) (c : Bool) : (rotated v c).result = v := rfl

@[simp] theorem rotated_flags (v : Byte) (c : Bool) :
    (rotated v c).flags = { z := false, n := false, h := false, c := c } := rfl

end Sys2Proof.Machine
end

