-- ==== Sys2Proof/Laws/State.lean ====
section
/-! SUPPORT. One lemma per field per update: what each operation over State leaves of each field. -/

namespace Sys2Proof.Machine

/-! ## set_register8 -/

@[simp] theorem State.setR8_flags (s : State) (r : R8) (v : Byte) : (s.setR8 r v).flags = s.flags := by
  cases r <;> rfl

@[simp] theorem State.setR8_sp (s : State) (r : R8) (v : Byte) : (s.setR8 r v).sp = s.sp := by
  cases r <;> rfl

@[simp] theorem State.setR8_pc (s : State) (r : R8) (v : Byte) : (s.setR8 r v).pc = s.pc := by
  cases r <;> rfl

@[simp] theorem State.setR8_mem (s : State) (r : R8) (v : Byte) : (s.setR8 r v).mem = s.mem := by
  cases r <;> rfl

@[simp] theorem State.setR8_answers (s : State) (r : R8) (v : Byte) : (s.setR8 r v).answers = s.answers := by
  cases r <;> rfl

@[simp] theorem State.setR8_bus (s : State) (r : R8) (v : Byte) : (s.setR8 r v).bus = s.bus := by
  cases r <;> rfl

@[simp] theorem State.getR8_setR8_self (s : State) (r : R8) (v : Byte) :
    (s.setR8 r v).getR8 r = v := by
  cases r <;> rfl

theorem State.getR8_setR8_of_ne (s : State) (r q : R8) (v : Byte) (h : q ≠ r) :
    (s.setR8 r v).getR8 q = s.getR8 q := by
  cases r <;> cases q <;> first | rfl | exact absurd rfl h

@[simp] theorem State.getR8_a (s : State) : s.getR8 .a = s.a := rfl

@[simp] theorem State.getR8_b (s : State) : s.getR8 .b = s.b := rfl

@[simp] theorem State.getR8_c (s : State) : s.getR8 .c = s.c := rfl

@[simp] theorem State.getR8_d (s : State) : s.getR8 .d = s.d := rfl

@[simp] theorem State.getR8_e (s : State) : s.getR8 .e = s.e := rfl

@[simp] theorem State.getR8_h (s : State) : s.getR8 .h = s.h := rfl

@[simp] theorem State.getR8_l (s : State) : s.getR8 .l = s.l := rfl

/-! ## Operations that leave the cells -/

@[simp] theorem State.setFlags_getR8 (s : State) (new mask : Flags) (r : R8) : (s.setFlags new mask).getR8 r = s.getR8 r := by
  cases r <;> rfl

@[simp] theorem State.setFlags_a (s : State) (new mask : Flags) : (s.setFlags new mask).a = s.a := rfl

@[simp] theorem State.setFlags_b (s : State) (new mask : Flags) : (s.setFlags new mask).b = s.b := rfl

@[simp] theorem State.setFlags_c (s : State) (new mask : Flags) : (s.setFlags new mask).c = s.c := rfl

@[simp] theorem State.setFlags_d (s : State) (new mask : Flags) : (s.setFlags new mask).d = s.d := rfl

@[simp] theorem State.setFlags_e (s : State) (new mask : Flags) : (s.setFlags new mask).e = s.e := rfl

@[simp] theorem State.setFlags_h (s : State) (new mask : Flags) : (s.setFlags new mask).h = s.h := rfl

@[simp] theorem State.setFlags_l (s : State) (new mask : Flags) : (s.setFlags new mask).l = s.l := rfl

@[simp] theorem State.setFlags_sp (s : State) (new mask : Flags) : (s.setFlags new mask).sp = s.sp := rfl

@[simp] theorem State.setFlags_pc (s : State) (new mask : Flags) : (s.setFlags new mask).pc = s.pc := rfl

@[simp] theorem State.setFlags_mem (s : State) (new mask : Flags) : (s.setFlags new mask).mem = s.mem := rfl

@[simp] theorem State.setFlags_answers (s : State) (new mask : Flags) : (s.setFlags new mask).answers = s.answers := rfl

@[simp] theorem State.setFlags_bus (s : State) (new mask : Flags) : (s.setFlags new mask).bus = s.bus := rfl

@[simp] theorem State.memWrite_getR8 (s : State) (addr : Word) (v : Byte) (r : R8) : (s.memWrite addr v).getR8 r = s.getR8 r := by
  cases r <;> rfl

@[simp] theorem State.memWrite_a (s : State) (addr : Word) (v : Byte) : (s.memWrite addr v).a = s.a := rfl

@[simp] theorem State.memWrite_b (s : State) (addr : Word) (v : Byte) : (s.memWrite addr v).b = s.b := rfl

@[simp] theorem State.memWrite_c (s : State) (addr : Word) (v : Byte) : (s.memWrite addr v).c = s.c := rfl

@[simp] theorem State.memWrite_d (s : State) (addr : Word) (v : Byte) : (s.memWrite addr v).d = s.d := rfl

@[simp] theorem State.memWrite_e (s : State) (addr : Word) (v : Byte) : (s.memWrite addr v).e = s.e := rfl

@[simp] theorem State.memWrite_h (s : State) (addr : Word) (v : Byte) : (s.memWrite addr v).h = s.h := rfl

@[simp] theorem State.memWrite_l (s : State) (addr : Word) (v : Byte) : (s.memWrite addr v).l = s.l := rfl

@[simp] theorem State.memWrite_flags (s : State) (addr : Word) (v : Byte) : (s.memWrite addr v).flags = s.flags := rfl

@[simp] theorem State.memWrite_sp (s : State) (addr : Word) (v : Byte) : (s.memWrite addr v).sp = s.sp := rfl

@[simp] theorem State.memWrite_pc (s : State) (addr : Word) (v : Byte) : (s.memWrite addr v).pc = s.pc := rfl

@[simp] theorem State.memWrite_answers (s : State) (addr : Word) (v : Byte) : (s.memWrite addr v).answers = s.answers := rfl

@[simp] theorem State.memRead_getR8 (s : State) (addr : Word) (r : R8) : (s.memRead addr).2.getR8 r = s.getR8 r := by
  cases r <;> rfl

@[simp] theorem State.memRead_a (s : State) (addr : Word) : (s.memRead addr).2.a = s.a := rfl

@[simp] theorem State.memRead_b (s : State) (addr : Word) : (s.memRead addr).2.b = s.b := rfl

@[simp] theorem State.memRead_c (s : State) (addr : Word) : (s.memRead addr).2.c = s.c := rfl

@[simp] theorem State.memRead_d (s : State) (addr : Word) : (s.memRead addr).2.d = s.d := rfl

@[simp] theorem State.memRead_e (s : State) (addr : Word) : (s.memRead addr).2.e = s.e := rfl

@[simp] theorem State.memRead_h (s : State) (addr : Word) : (s.memRead addr).2.h = s.h := rfl

@[simp] theorem State.memRead_l (s : State) (addr : Word) : (s.memRead addr).2.l = s.l := rfl

@[simp] theorem State.memRead_flags (s : State) (addr : Word) : (s.memRead addr).2.flags = s.flags := rfl

@[simp] theorem State.memRead_sp (s : State) (addr : Word) : (s.memRead addr).2.sp = s.sp := rfl

@[simp] theorem State.memRead_pc (s : State) (addr : Word) : (s.memRead addr).2.pc = s.pc := rfl

@[simp] theorem State.memRead_mem (s : State) (addr : Word) : (s.memRead addr).2.mem = s.mem := rfl

@[simp] theorem State.fetch8_getR8 (s : State) (r : R8) : s.fetch8.2.getR8 r = s.getR8 r := by
  cases r <;> rfl

@[simp] theorem State.fetch8_a (s : State) : s.fetch8.2.a = s.a := rfl

@[simp] theorem State.fetch8_b (s : State) : s.fetch8.2.b = s.b := rfl

@[simp] theorem State.fetch8_c (s : State) : s.fetch8.2.c = s.c := rfl

@[simp] theorem State.fetch8_d (s : State) : s.fetch8.2.d = s.d := rfl

@[simp] theorem State.fetch8_e (s : State) : s.fetch8.2.e = s.e := rfl

@[simp] theorem State.fetch8_h (s : State) : s.fetch8.2.h = s.h := rfl

@[simp] theorem State.fetch8_l (s : State) : s.fetch8.2.l = s.l := rfl

@[simp] theorem State.fetch8_flags (s : State) : s.fetch8.2.flags = s.flags := rfl

@[simp] theorem State.fetch8_sp (s : State) : s.fetch8.2.sp = s.sp := rfl

@[simp] theorem State.fetch8_mem (s : State) : s.fetch8.2.mem = s.mem := rfl

@[simp] theorem State.setFlags_flags (s : State) (new mask : Flags) :
    (s.setFlags new mask).flags = s.flags.commit new mask := rfl

@[simp] theorem State.memWrite_mem (s : State) (addr : Word) (v : Byte) :
    (s.memWrite addr v).mem = s.mem.write addr.toNat v := rfl

@[simp] theorem State.memWrite_bus (s : State) (addr : Word) (v : Byte) :
    (s.memWrite addr v).bus = s.bus ++ [.write addr v] := rfl

@[simp] theorem State.memRead_answers (s : State) (addr : Word) :
    (s.memRead addr).2.answers = s.answers.tail := rfl

@[simp] theorem State.memRead_bus (s : State) (addr : Word) :
    (s.memRead addr).2.bus = s.bus ++ [.read addr (s.memRead addr).1] := rfl

@[simp] theorem State.fetch8_pc (s : State) : s.fetch8.2.pc = s.pc + 1 := rfl

@[simp] theorem State.fetch8_answers (s : State) : s.fetch8.2.answers = s.answers.tail := rfl

@[simp] theorem State.fetch8_bus (s : State) :
    s.fetch8.2.bus = s.bus ++ [.read s.pc s.fetch8.1] := rfl

/-! ## Flag vectors -/

@[simp] theorem Flags.commit_all (old new : Flags) : old.commit new Flags.all = new := rfl

@[simp] theorem Flags.commit_butCarry (old new : Flags) :
    old.commit new Flags.butCarry = { new with c := old.c } := rfl

@[simp] theorem Flags.commit_butZero (old new : Flags) :
    old.commit new Flags.butZero = { new with z := old.z } := rfl

/-! ## set_register16 -/

@[simp] theorem State.setR16_mem (s : State) (n : Reg16) (v : Word) :
    (s.setR16 n v).mem = s.mem := by
  cases n <;> rfl

@[simp] theorem State.setR16_answers (s : State) (n : Reg16) (v : Word) :
    (s.setR16 n v).answers = s.answers := by
  cases n <;> rfl

@[simp] theorem State.setR16_bus (s : State) (n : Reg16) (v : Word) :
    (s.setR16 n v).bus = s.bus := by
  cases n <;> rfl

theorem State.setR16_flags (s : State) (n : Reg16) (v : Word) (h : n ≠ .af) :
    (s.setR16 n v).flags = s.flags := by
  cases n <;> first | rfl | exact absurd rfl h

theorem State.setR16_sp (s : State) (n : Reg16) (v : Word) (h : n ≠ .sp) :
    (s.setR16 n v).sp = s.sp := by
  cases n <;> first | rfl | exact absurd rfl h

theorem State.setR16_pc (s : State) (n : Reg16) (v : Word) (h : n ≠ .pc) :
    (s.setR16 n v).pc = s.pc := by
  cases n <;> first | rfl | exact absurd rfl h

theorem R16.reg16_ne_af (w : R16) : w.reg16 ≠ .af := by cases w <;> decide

theorem R16.reg16_ne_pc (w : R16) : w.reg16 ≠ .pc := by cases w <;> decide

end Sys2Proof.Machine
end

