-- ==== Sys2Proof/Laws/Fetch.lean ====
section
/-! SUPPORT. What the fetches do, said once: `State.fetched` in closed form, and the instruction a
step fetches in terms of the bytes at PC. -/

namespace Sys2Proof.Machine

/-- The port's next answer is answer 0. -/
theorem State.memRead_fst (s : State) (addr : Word) : (s.memRead addr).1 = s.answer 0 addr := by
  cases h : s.answers <;> simp [State.memRead, State.answer, h]

theorem State.fetch8_fst (s : State) : s.fetch8.1 = s.fetchedByte 0 := by
  simp [State.fetch8, State.memRead_fst, State.fetchedByte]

/-- After one fetch the answers that are left are numbered one lower. -/
theorem State.fetch8_answer (s : State) (k : Nat) (addr : Word) :
    s.fetch8.2.answer k addr = s.answer (k + 1) addr := by
  cases h : s.answers <;> simp [State.fetch8, State.memRead, State.answer, h]

theorem State.fetch8_fetchedByte (s : State) (k : Nat) :
    s.fetch8.2.fetchedByte k = s.fetchedByte (k + 1) := by
  simp only [State.fetchedByte, State.fetch8_answer, State.fetch8_pc]
  congr 1
  rw [BitVec.add_assoc]
  congr 1
  simp [BitVec.ofNat_add, BitVec.add_comm]

theorem State.fetch8_fetchReads (s : State) (n : Nat) :
    Transaction.read s.pc s.fetch8.1 :: s.fetch8.2.fetchReads n = s.fetchReads (n + 1) := by
  simp only [State.fetchReads, List.range_succ_eq_map, List.map_cons, List.map_map, State.fetch8_fst]
  congr 1
  · simp
  · apply List.map_congr_left
    intro k _
    simp only [Function.comp, State.fetch8_fetchedByte, State.fetch8_pc, Nat.succ_eq_add_one]
    congr 1
    rw [BitVec.add_assoc]
    congr 1
    simp [BitVec.ofNat_add, BitVec.add_comm]

/-- The state once `n` bytes have been fetched: PC, the oracle and the history have moved, and
nothing else. -/
theorem State.fetched_eq (n : Nat) (s : State) :
    s.fetched n = { s with pc := s.pc + BitVec.ofNat 16 n, answers := s.answers.drop n,
                           bus := s.bus ++ s.fetchReads n } := by
  induction n generalizing s with
  | zero => simp [State.fetched, State.fetchReads]
  | succ n ih =>
    rw [State.fetched, ih, State.fetch8_bus, List.append_assoc, List.singleton_append,
      State.fetch8_fetchReads, State.fetch8_pc, State.fetch8_answers]
    have h : s.pc + 1 + BitVec.ofNat 16 n = s.pc + BitVec.ofNat 16 (n + 1) := by
      rw [BitVec.add_assoc]; congr 1; simp [BitVec.ofNat_add, BitVec.add_comm]
    rw [h]
    simp [State.fetch8, State.memRead]

@[simp] theorem State.fetched_mem (n : Nat) (s : State) : (s.fetched n).mem = s.mem := by
  rw [State.fetched_eq]

@[simp] theorem State.fetched_flags (n : Nat) (s : State) : (s.fetched n).flags = s.flags := by
  rw [State.fetched_eq]

@[simp] theorem State.fetched_sp (n : Nat) (s : State) : (s.fetched n).sp = s.sp := by
  rw [State.fetched_eq]

@[simp] theorem State.fetched_pc (n : Nat) (s : State) :
    (s.fetched n).pc = s.pc + BitVec.ofNat 16 n := by
  rw [State.fetched_eq]

@[simp] theorem State.fetched_answers (n : Nat) (s : State) :
    (s.fetched n).answers = s.answers.drop n := by
  rw [State.fetched_eq]

@[simp] theorem State.fetched_bus (n : Nat) (s : State) :
    (s.fetched n).bus = s.bus ++ s.fetchReads n := by
  rw [State.fetched_eq]

@[simp] theorem State.fetched_getR8 (n : Nat) (s : State) (r : R8) :
    (s.fetched n).getR8 r = s.getR8 r := by
  rw [State.fetched_eq]; cases r <;> rfl

@[simp] theorem State.fetched_hl (n : Nat) (s : State) : (s.fetched n).hl = s.hl := by
  rw [State.fetched_eq]; rfl

theorem State.fetched_getR16 (n : Nat) (s : State) (w : R16) :
    (s.fetched n).getR16 w.reg16 = s.getR16 w.reg16 := by
  rw [State.fetched_eq]; cases w <;> rfl

@[simp] theorem State.fetched_r16memAddr (n : Nat) (s : State) (m : R16Mem) :
    (s.fetched n).r16memAddr m = s.r16memAddr m := by
  rw [State.fetched_eq]; cases m <;> rfl

/-- After the fetches the port's answers are numbered `n` lower. -/
theorem State.fetched_answer (n k : Nat) (s : State) (addr : Word) :
    (s.fetched n).answer k addr = s.answer (n + k) addr := by
  rw [State.fetched_eq]; simp [State.answer]

/-- What a failed step leaves: one more transaction, one answer fewer, and nothing else. -/
theorem State.opcodeFetchOnly_eq (s : State) : s.opcodeFetchOnly = s.afterFailure := by
  simp [State.opcodeFetchOnly, State.afterFailure, State.fetched_eq, State.fetchReads]

@[simp] theorem State.afterFailure_getR8 (s : State) (r : R8) :
    s.afterFailure.getR8 r = s.getR8 r := by
  cases r <;> rfl

@[simp] theorem State.afterFailure_flags (s : State) : s.afterFailure.flags = s.flags := rfl

@[simp] theorem State.afterFailure_sp (s : State) : s.afterFailure.sp = s.sp := rfl

@[simp] theorem State.afterFailure_pc (s : State) : s.afterFailure.pc = s.pc := rfl

@[simp] theorem State.afterFailure_mem (s : State) : s.afterFailure.mem = s.mem := rfl

@[simp] theorem State.afterFailure_answers (s : State) :
    s.afterFailure.answers = s.answers.drop 1 := rfl

@[simp] theorem State.afterFailure_bus (s : State) :
    s.afterFailure.bus = s.bus ++ [.read s.pc (s.fetchedByte 0)] := rfl

/-- The instruction a step fetches, by the bytes the port answers at PC, PC+1 and PC+2. -/
theorem State.fetchInstr_eq (s : State) :
    s.fetchInstr = match decodeOpcode (s.fetchedByte 0) with
      | .op i => i
      | .opI8 f => f (s.fetchedByte 1)
      | .opI16 f => f (wordOf (s.fetchedByte 2) (s.fetchedByte 1)) := by
  cases h : decodeOpcode (s.fetchedByte 0) <;>
    simp [State.fetchInstr, State.fetch16, State.fetch8_fst, State.fetch8_fetchedByte, h]

/-- The instruction a step fetches depends on PC, the array and the oracle alone. -/
theorem State.fetchInstr_congr (s u : State) (hpc : u.pc = s.pc) (hmem : u.mem = s.mem)
    (hans : u.answers = s.answers) : u.fetchInstr = s.fetchInstr := by
  simp only [State.fetchInstr_eq, State.fetchedByte, State.answer, hpc, hmem, hans]

end Sys2Proof.Machine
end

