-- ==== Sys2Proof/Laws/Memory.lean ====
section
/-! SUPPORT. The laws of the byte array: what a write leaves of a read, and that every memory
operation keeps the canonical form. -/

namespace Sys2Proof.Machine

theorem Memory.read_cons_of_ne (m : Memory) (a x : Nat) (v : Byte) (h : x ≠ a) :
    (Memory.cons a v m).read x = m.read x := by
  unfold Memory.cons
  split
  · rfl
  · simp [Memory.read, Ne.symm h]

/-- A write leaves every other address, in any memory. -/
theorem Memory.read_write_of_ne (m : Memory) (a x : Nat) (v : Byte) (h : x ≠ a) :
    (m.write a v).read x = m.read x := by
  induction m with
  | nil => exact Memory.read_cons_of_ne [] a x v h
  | cons cell m ih =>
    obtain ⟨k, w⟩ := cell
    simp only [Memory.write]
    split
    · exact Memory.read_cons_of_ne _ a x v h
    · split
      · next hk => rw [Memory.read_cons_of_ne _ a x v h]; simp [Memory.read, ← hk, Ne.symm h]
      · simp only [Memory.read, ih]

theorem Memory.wfFrom_mono (m : Memory) (low low' : Nat) (h : low' ≤ low)
    (hm : Memory.wfFrom low m = true) : Memory.wfFrom low' m = true := by
  cases m with
  | nil => rfl
  | cons cell m =>
    simp only [Memory.wfFrom, Bool.and_eq_true, decide_eq_true_eq] at hm ⊢
    exact ⟨⟨⟨h.trans hm.1.1.1, hm.1.1.2⟩, hm.1.2⟩, hm.2⟩

/-- Below its lowest cell a memory lists nothing. -/
theorem Memory.read_below (m : Memory) (low x : Nat) (hm : Memory.wfFrom low m = true)
    (h : x < low) : m.read x = Config.unlistedByte := by
  induction m generalizing low with
  | nil => rfl
  | cons cell m ih =>
    obtain ⟨k, w⟩ := cell
    simp only [Memory.wfFrom, Bool.and_eq_true, decide_eq_true_eq] at hm
    have hk : k ≠ x := by omega
    simp only [Memory.read, hk, if_false]
    exact ih (k + 1) hm.2 (by omega)

theorem Memory.read_cons_self (m : Memory) (a : Nat) (v : Byte)
    (hm : Memory.wfFrom (a + 1) m = true) : (Memory.cons a v m).read a = v := by
  unfold Memory.cons
  split
  · next hv => rw [hv]; exact Memory.read_below m (a + 1) a hm (by omega)
  · simp [Memory.read]

/-- A read gives the byte just written there. -/
theorem Memory.read_write_self (m : Memory) (low a : Nat) (v : Byte)
    (hm : Memory.wfFrom low m = true) : (m.write a v).read a = v := by
  induction m generalizing low with
  | nil => exact Memory.read_cons_self [] a v rfl
  | cons cell m ih =>
    obtain ⟨k, w⟩ := cell
    have hm' := hm
    simp only [Memory.wfFrom, Bool.and_eq_true, decide_eq_true_eq] at hm'
    simp only [Memory.write]
    split
    · next hk =>
      refine Memory.read_cons_self _ a v ?_
      simp only [Memory.wfFrom, Bool.and_eq_true, decide_eq_true_eq]
      exact ⟨⟨⟨hk, hm'.1.1.2⟩, hm'.1.2⟩, hm'.2⟩
    · split
      · next hk => rw [hk]; exact Memory.read_cons_self m k v hm'.2
      · next hk => simp only [Memory.read, Ne.symm hk, if_false]; exact ih (k + 1) hm'.2

theorem Memory.wfFrom_cons (m : Memory) (low a : Nat) (v : Byte) (hl : low ≤ a)
    (ha : a < Config.addressSpaceSize) (hm : Memory.wfFrom (a + 1) m = true) :
    Memory.wfFrom low (Memory.cons a v m) = true := by
  unfold Memory.cons
  split
  · exact Memory.wfFrom_mono m (a + 1) low (by omega) hm
  · next hv => simp [Memory.wfFrom, hl, ha, hv, hm]

theorem Memory.wfFrom_write (m : Memory) (low a : Nat) (v : Byte) (hl : low ≤ a)
    (ha : a < Config.addressSpaceSize) (hm : Memory.wfFrom low m = true) :
    Memory.wfFrom low (m.write a v) = true := by
  induction m generalizing low with
  | nil => exact Memory.wfFrom_cons [] low a v hl ha rfl
  | cons cell m ih =>
    obtain ⟨k, w⟩ := cell
    have hm' := hm
    simp only [Memory.wfFrom, Bool.and_eq_true, decide_eq_true_eq] at hm'
    simp only [Memory.write]
    split
    · next hk =>
      refine Memory.wfFrom_cons _ low a v hl ha ?_
      simp only [Memory.wfFrom, Bool.and_eq_true, decide_eq_true_eq]
      exact ⟨⟨⟨hk, hm'.1.1.2⟩, hm'.1.2⟩, hm'.2⟩
    · split
      · next hk => rw [hk]; exact Memory.wfFrom_cons m low k v hm'.1.1.1 hm'.1.1.2 hm'.2
      · next hlt hne =>
        simp only [Memory.wfFrom, Bool.and_eq_true, decide_eq_true_eq]
        exact ⟨hm'.1, ih (k + 1) (by omega) hm'.2⟩

/-- A 16-bit address is inside the address space (R2, R50). -/
theorem word_lt_addressSpaceSize (addr : Word) : addr.toNat < Config.addressSpaceSize :=
  addr.isLt

/-- A write at a 16-bit address keeps the canonical form. -/
theorem Memory.wf_write (m : Memory) (addr : Word) (v : Byte) (hm : m.wf = true) :
    (m.write addr.toNat v).wf = true :=
  Memory.wfFrom_write m 0 addr.toNat v (Nat.zero_le _) (word_lt_addressSpaceSize addr) hm

/-- Loading bytes keeps the canonical form. -/
theorem Memory.wf_load (vs : List Byte) (m : Memory) (addr : Word) (hm : m.wf = true) :
    (m.load addr vs).wf = true := by
  induction vs generalizing m addr with
  | nil => exact hm
  | cons v vs ih => exact ih (m.write addr.toNat v) (addr + 1) (Memory.wf_write m addr v hm)

theorem State.wf_memWrite (s : State) (addr : Word) (v : Byte) (hs : s.mem.wf = true) :
    (s.memWrite addr v).mem.wf = true :=
  Memory.wf_write s.mem addr v hs

theorem State.wf_memWrite16 (s : State) (addr v : Word) (hs : s.mem.wf = true) :
    (s.memWrite16 addr v).mem.wf = true :=
  State.wf_memWrite _ (addr + 1) (hiByte v) (State.wf_memWrite s addr (loByte v) hs)

theorem State.wf_memRead (s : State) (addr : Word) (hs : s.mem.wf = true) :
    (s.memRead addr).2.mem.wf = true := hs

theorem State.wf_loadAtPc (s : State) (bytes : List Byte) (hs : s.mem.wf = true) :
    (s.loadAtPc bytes).mem.wf = true :=
  Memory.wf_load bytes s.mem s.pc hs

theorem State.reset_wf : State.reset.mem.wf = true := rfl

end Sys2Proof.Machine
end

