-- ==== Sys2Proof/Laws/Operands.lean ====
section
/-! SUPPORT. One lemma for each shared operation of the meanings: everything it does to a state. -/

namespace Sys2Proof.Machine

/-- The state `n` fetched bytes and then the data reads `reads` on from `s`. -/
def State.after (s : State) (n : Nat) (reads : List Transaction) : State :=
  { s with pc := s.pc + BitVec.ofNat 16 n, answers := s.answers.drop (n + reads.length),
           bus := s.bus ++ s.fetchReads n ++ reads }

/-- A data read after `n` fetched bytes. -/
theorem State.memRead_fetched (s : State) (n : Nat) (addr : Word) :
    (s.fetched n).memRead addr = (s.answer n addr, s.after n [.read addr (s.answer n addr)]) := by
  have h : ((s.fetched n).memRead addr).1 = s.answer n addr := by
    rw [State.memRead_fst, State.fetched_answer, Nat.add_zero]
  refine Prod.ext h ?_
  simp only [State.memRead] at h ⊢
  rw [h]
  simp [State.fetched_eq, State.after, List.tail_drop]

/-- A block-2 operand, or the source of a move, after the opcode fetch (R87, R180). -/
theorem State.readOperand8_fetched (s : State) (o : Operand8) :
    (s.fetched 1).readOperand8 o = (s.operandValue o, s.after 1 (s.operandReads o)) := by
  cases o with
  | reg r => simp [State.readOperand8, State.operandValue, State.operandReads, State.after,
      State.fetched_eq, State.getR8]
  | indirectHL =>
    simp only [State.readOperand8, State.fetched_hl, State.memRead_fetched]; rfl

@[simp] theorem State.after_getR8 (s : State) (n : Nat) (reads : List Transaction) (r : R8) :
    (s.after n reads).getR8 r = s.getR8 r := by
  cases r <;> rfl

@[simp] theorem State.after_mem (s : State) (n : Nat) (reads : List Transaction) :
    (s.after n reads).mem = s.mem := rfl

@[simp] theorem State.after_flags (s : State) (n : Nat) (reads : List Transaction) :
    (s.after n reads).flags = s.flags := rfl

@[simp] theorem State.after_sp (s : State) (n : Nat) (reads : List Transaction) :
    (s.after n reads).sp = s.sp := rfl

@[simp] theorem State.after_hl (s : State) (n : Nat) (reads : List Transaction) :
    (s.after n reads).hl = s.hl := rfl

@[simp] theorem State.after_pc (s : State) (n : Nat) (reads : List Transaction) :
    (s.after n reads).pc = s.pc + BitVec.ofNat 16 n := rfl

@[simp] theorem State.after_answers (s : State) (n : Nat) (reads : List Transaction) :
    (s.after n reads).answers = s.answers.drop (n + reads.length) := rfl

@[simp] theorem State.after_bus (s : State) (n : Nat) (reads : List Transaction) :
    (s.after n reads).bus = s.bus ++ s.fetchReads n ++ reads := rfl

/-- What the seven writing instructions of block 2 do (R180). -/
theorem accumulate_eq (f : Byte → Byte → Bool → AluResult) (o : Operand8) (s : State) :
    accumulate f o s = .next (((s.after 1 (s.operandReads o)).setR8 .a
      (f s.a (s.operandValue o) s.flags.c).result).setFlags
      (f s.a (s.operandValue o) s.flags.c).flags Flags.all) := by
  simp [accumulate, State.readOperand8_fetched]

/-- What CP does (R188). -/
theorem compareWith_eq (f : Byte → Byte → Bool → AluResult) (o : Operand8) (s : State) :
    compareWith f o s = .next ((s.after 1 (s.operandReads o)).setFlags
      (f s.a (s.operandValue o) s.flags.c).flags Flags.all) := by
  simp [compareWith, State.readOperand8_fetched]

/-- What INC and DEC of a byte do (R150 to R153). -/
theorem stepOperand8_eq (f : Byte → AluResult) (o : Operand8) (s : State) :
    stepOperand8 f o (s.fetched 1) = .next (((s.after 1 (s.operandReads o)).writeOperand8 o
      (f (s.operandValue o)).result).setFlags (f (s.operandValue o)).flags Flags.butCarry) := by
  simp [stepOperand8, State.readOperand8_fetched]

/-- What a move does (R170 to R172). -/
theorem moveOperand8_eq (dst src : Operand8) (s : State) :
    moveOperand8 dst src (s.fetched 1) =
      .next ((s.after 1 (s.operandReads src)).writeOperand8 dst (s.operandValue src)) := by
  simp [moveOperand8, State.readOperand8_fetched]

/-- Raising the condition never gives a next state, and makes one read (R125, R216). -/
theorem raiseUnimplemented_eq (o : Byte) (s : State) :
    raiseUnimplemented o s = .fault (.unimplemented o s.pc s.afterFailure) := by
  rw [raiseUnimplemented, State.opcodeFetchOnly_eq]

/-- Every read of the operand list is one. -/
theorem State.operandReads_isRead (s : State) (o : Operand8) :
    ∀ x ∈ s.operandReads o, x.isRead = true := by
  cases o <;> simp [State.operandReads, Transaction.isRead]

theorem State.operandReads_length (s : State) (o : Operand8) : (s.operandReads o).length ≤ 1 := by
  cases o <;> simp [State.operandReads]

end Sys2Proof.Machine
end

