-- ==== Sys2Proof/Laws/PerInstr.lean ====
section
/-! SUPPORT. Laws stated of every instruction as syntax, one lemma for each constructor. -/

/-! EncodeLength: a well-formed instruction is encoded in as many bytes as its opcode alone
decides (spec/30_encoding.md R77). -/

namespace Sys2Proof.Laws.EncodeLength

open Sys2Proof

def Statement (i : Instr) : Prop :=
  i.wellFormed = true → (encode i).length = 1 + (decodeOpcode i.opcode).immediates

theorem nop (p : BitVec 2) : Statement (.nop p) := by
  intro _; revert p; decide

theorem ldR16Imm16 (dst : R16) (nn : Word) : Statement (.ldR16Imm16 dst nn) := by
  intro _
  show 3 = 1 + (decodeOpcode (opcodePQZ dst.index 0 1)).immediates
  cases dst <;> rfl

theorem ldR16memA (m : R16Mem) : Statement (.ldR16memA m) := by
  intro _; cases m <;> rfl

theorem ldAR16mem (m : R16Mem) : Statement (.ldAR16mem m) := by
  intro _; cases m <;> rfl

theorem ldImm16SP (nn : Word) : Statement (.ldImm16SP nn) := by
  intro _
  show 3 = 1 + (decodeOpcode (opcodePQZ 0 1 0)).immediates
  rfl

theorem incR16 (dst : R16) : Statement (.incR16 dst) := by
  intro _; cases dst <;> rfl

theorem decR16 (dst : R16) : Statement (.decR16 dst) := by
  intro _; cases dst <;> rfl

theorem addHLR16 (w : R16) : Statement (.addHLR16 w) := by
  intro _; cases w <;> rfl

theorem incR8 (r : R8) : Statement (.incR8 r) := by
  intro _; cases r <;> rfl

theorem incHL : Statement .incHL := fun _ => rfl

theorem decR8 (r : R8) : Statement (.decR8 r) := by
  intro _; cases r <;> rfl

theorem decHL : Statement .decHL := fun _ => rfl

theorem ldR8Imm8 (dst : R8) (n : Byte) : Statement (.ldR8Imm8 dst n) := by
  intro _
  show 2 = 1 + (decodeOpcode (opcodeXYZ 0 dst.index 6)).immediates
  cases dst <;> rfl

theorem ldHLImm8 (n : Byte) : Statement (.ldHLImm8 n) := by
  intro _
  show 2 = 1 + (decodeOpcode (opcodeXYZ 0 6 6)).immediates
  rfl

theorem rlca : Statement .rlca := fun _ => rfl

theorem rrca : Statement .rrca := fun _ => rfl

theorem rla : Statement .rla := fun _ => rfl

theorem rra : Statement .rra := fun _ => rfl

theorem unimplemented18 : Statement .unimplemented18 := fun _ => rfl

theorem unimplemented27 : Statement .unimplemented27 := fun _ => rfl

theorem unimplemented28 : Statement .unimplemented28 := fun _ => rfl

theorem unimplemented2F : Statement .unimplemented2F := fun _ => rfl

theorem unimplemented37 : Statement .unimplemented37 := fun _ => rfl

theorem unimplemented38 : Statement .unimplemented38 := fun _ => rfl

theorem unimplemented3F : Statement .unimplemented3F := fun _ => rfl

theorem ldR8R8 (dst src : R8) : Statement (.ldR8R8 dst src) := by
  intro _; cases dst <;> cases src <;> rfl

theorem ldR8HL (dst : R8) : Statement (.ldR8HL dst) := by
  intro _; cases dst <;> rfl

theorem ldHLR8 (src : R8) : Statement (.ldHLR8 src) := by
  intro _; cases src <;> rfl

theorem reservedHalt : Statement .reservedHalt := fun _ => rfl

theorem addA (o : Operand8) : Statement (.addA o) := by
  intro _
  cases o with
  | reg r => cases r <;> rfl
  | indirectHL => rfl

theorem adcA (o : Operand8) : Statement (.adcA o) := by
  intro _
  cases o with
  | reg r => cases r <;> rfl
  | indirectHL => rfl

theorem subA (o : Operand8) : Statement (.subA o) := by
  intro _
  cases o with
  | reg r => cases r <;> rfl
  | indirectHL => rfl

theorem sbcA (o : Operand8) : Statement (.sbcA o) := by
  intro _
  cases o with
  | reg r => cases r <;> rfl
  | indirectHL => rfl

theorem andA (o : Operand8) : Statement (.andA o) := by
  intro _
  cases o with
  | reg r => cases r <;> rfl
  | indirectHL => rfl

theorem xorA (o : Operand8) : Statement (.xorA o) := by
  intro _
  cases o with
  | reg r => cases r <;> rfl
  | indirectHL => rfl

theorem orA (o : Operand8) : Statement (.orA o) := by
  intro _
  cases o with
  | reg r => cases r <;> rfl
  | indirectHL => rfl

theorem cpA (o : Operand8) : Statement (.cpA o) := by
  intro _
  cases o with
  | reg r => cases r <;> rfl
  | indirectHL => rfl

theorem block3 (opcode : Byte) : Statement (.block3 opcode) := by
  intro h
  revert opcode
  unfold Instr.wellFormed
  decide +kernel

end Sys2Proof.Laws.EncodeLength
end

