-- ==== Sys2Proof/Laws/Step.lean ====
section
/-! SUPPORT. What a completed step can do, said once: its effect on PC, on the MEM port and on
memory, as a number of fetched bytes, a list of addresses read and a list of bytes written. -/

namespace Sys2Proof.Machine

/-- Bytes written to memory one after the other. -/
def Memory.writeAll (m : Memory) (ws : List (Word × Byte)) : Memory :=
  ws.foldl (fun m w => m.write w.1.toNat w.2) m

/-- The data reads of a step, each answered after the step's `n` fetches. -/
def State.dataReads (s : State) (n : Nat) (addrs : List Word) : List Transaction :=
  addrs.map fun a => .read a (s.answer n a)

/-- The data writes of a step. -/
def dataWrites (ws : List (Word × Byte)) : List Transaction := ws.map fun w => .write w.1 w.2

/-- The effect of a completed step: `n` bytes fetched, then the reads, then the writes. -/
structure PortEffect (n : Nat) (addrs : List Word) (ws : List (Word × Byte)) (s t : State) :
    Prop where
  pc : t.pc = s.pc + BitVec.ofNat 16 n
  bus : t.bus = s.bus ++ s.fetchReads n ++ s.dataReads n addrs ++ dataWrites ws
  answers : t.answers = s.answers.drop (n + addrs.length)
  mem : t.mem = s.mem.writeAll ws

/-- The addresses an instruction reads as data (R51). -/
def dataReadAddrs (s : State) : Instr → List Word
  | .ldAR16mem m => [s.r16memAddr m]
  | .incHL | .decHL | .ldR8HL _ | .addA .indirectHL | .adcA .indirectHL | .subA .indirectHL
  | .sbcA .indirectHL | .andA .indirectHL | .xorA .indirectHL | .orA .indirectHL
  | .cpA .indirectHL => [s.hl]
  | _ => []

/-- The bytes an instruction writes, in order (R51). -/
def dataWriteBytes (s : State) : Instr → List (Word × Byte)
  | .ldR16memA m => [(s.r16memAddr m, s.a)]
  | .ldImm16SP nn => [(nn, loByte s.sp), (nn + 1, hiByte s.sp)]
  | .incHL => [(s.hl, (aluInc (s.answer 1 s.hl)).result)]
  | .decHL => [(s.hl, (aluDec (s.answer 1 s.hl)).result)]
  | .ldHLImm8 n => [(s.hl, n)]
  | .ldHLR8 src => [(s.hl, s.getR8 src)]
  | _ => []

/-- The address a block-2 operand reads, if it is in memory (R180). -/
def operandAddrs (s : State) : Operand8 → List Word
  | .reg _ => []
  | .indirectHL => [s.hl]

/-- The byte a block-2 operand writes, if it is in memory (R87). -/
def operandBytes (s : State) (v : Byte) : Operand8 → List (Word × Byte)
  | .reg _ => []
  | .indirectHL => [(s.hl, v)]

/-- A next state is the one it was built from. -/
theorem next_inj {x t : State} (h : (.next x : Result) = .next t) : t = x :=
  (Host.Outcome.next.inj h).symm

theorem portEffect_accumulate (f : Byte → Byte → Bool → AluResult) (o : Operand8) (s t : State)
    (h : accumulate f o s = .next t) :
    PortEffect 1 (operandAddrs s o) [] s t := by
  rw [accumulate_eq] at h
  have e := next_inj h
  subst e
  constructor <;> cases o <;> simp [operandAddrs, State.operandReads, State.dataReads, dataWrites, Memory.writeAll]

theorem portEffect_compareWith (f : Byte → Byte → Bool → AluResult) (o : Operand8) (s t : State)
    (h : compareWith f o s = .next t) :
    PortEffect 1 (operandAddrs s o) [] s t := by
  rw [compareWith_eq] at h
  have e := next_inj h
  subst e
  constructor <;> cases o <;> simp [operandAddrs, State.operandReads, State.dataReads, dataWrites, Memory.writeAll]

theorem portEffect_stepOperand8 (f : Byte → AluResult) (o : Operand8) (s t : State)
    (h : stepOperand8 f o (s.fetched 1) = .next t) :
    PortEffect 1 (operandAddrs s o)
      (operandBytes s (f (s.operandValue o)).result o) s t := by
  rw [stepOperand8_eq] at h
  have e := next_inj h
  subst e
  constructor <;> cases o <;> simp [operandAddrs, operandBytes, State.operandReads, State.dataReads, dataWrites,
    Memory.writeAll, State.writeOperand8, State.operandValue]

theorem portEffect_moveOperand8 (dst src : Operand8) (s t : State)
    (h : moveOperand8 dst src (s.fetched 1) = .next t) :
    PortEffect 1 (operandAddrs s src)
      (operandBytes s (s.operandValue src) dst) s t := by
  rw [moveOperand8_eq] at h
  have e := next_inj h
  subst e
  constructor <;> cases dst <;> cases src <;> simp [operandAddrs, operandBytes, State.operandReads, State.dataReads,
    dataWrites, Memory.writeAll, State.writeOperand8]

theorem portEffect_commitRotate (r : AluResult) (s t : State)
    (h : commitRotate r (s.fetched 1) = .next t) : PortEffect 1 [] [] s t := by
  have e := next_inj h
  subst e
  constructor <;> simp [State.dataReads, dataWrites, Memory.writeAll]

/-- If an instruction completes, its effect on PC, port and memory is this. -/
theorem exec_portEffect (i : Instr) (s t : State) (h : exec i s = .next t) :
    PortEffect (encode i).length (dataReadAddrs s i) (dataWriteBytes s i) s t := by
  cases i with
  | nop p =>
    have e := next_inj h
    rw [e]
    show PortEffect 1 [] [] s _
    constructor <;>
      simp [State.dataReads, dataWrites, Memory.writeAll]
  | ldR16Imm16 dst nn =>
    have e := next_inj h
    rw [e]
    show PortEffect 3 [] [] s _
    constructor <;> cases dst <;>
      simp [State.dataReads, dataWrites, Memory.writeAll, State.setR16, R16.reg16]
  | ldR16memA m =>
    have e := next_inj h
    rw [e]
    show PortEffect 1 [] [(s.r16memAddr m, s.a)] s _
    simp only [State.fetched_r16memAddr]
    constructor <;> cases m <;>
      simp [State.dataReads,
        dataWrites, Memory.writeAll, State.r16memPost, State.setR16] <;>
      simp [State.fetched_eq]
  | ldAR16mem m =>
    have e := next_inj h
    rw [e]
    show PortEffect 1 [s.r16memAddr m] [] s _
    simp only [State.fetched_r16memAddr, State.memRead_fetched]
    constructor <;> cases m <;>
      simp [State.dataReads,
        dataWrites, Memory.writeAll, State.r16memPost, State.setR16]
  | ldImm16SP nn =>
    have e := next_inj h
    rw [e]
    show PortEffect 3 [] [(nn, loByte s.sp), (nn + 1, hiByte s.sp)] s _
    constructor <;>
      simp [State.dataReads,
        dataWrites, Memory.writeAll, State.memWrite16]
  | incR16 dst =>
    have e := next_inj h
    rw [e]
    show PortEffect 1 [] [] s _
    constructor <;> cases dst <;>
      simp [State.dataReads, dataWrites, Memory.writeAll, State.setR16, R16.reg16]
  | decR16 dst =>
    have e := next_inj h
    rw [e]
    show PortEffect 1 [] [] s _
    constructor <;> cases dst <;>
      simp [State.dataReads, dataWrites, Memory.writeAll, State.setR16, R16.reg16]
  | addHLR16 w =>
    have e := next_inj h
    rw [e]
    show PortEffect 1 [] [] s _
    constructor <;>
      simp [State.dataReads, dataWrites, Memory.writeAll]
  | incR8 r => exact portEffect_stepOperand8 aluInc (.reg r) s t h
  | incHL => exact portEffect_stepOperand8 aluInc .indirectHL s t h
  | decR8 r => exact portEffect_stepOperand8 aluDec (.reg r) s t h
  | decHL => exact portEffect_stepOperand8 aluDec .indirectHL s t h
  | ldR8Imm8 dst n =>
    have e := next_inj h
    rw [e]
    show PortEffect 2 [] [] s _
    constructor <;>
      simp [State.dataReads, dataWrites, Memory.writeAll, State.writeOperand8]
  | ldHLImm8 n =>
    have e := next_inj h
    rw [e]
    show PortEffect 2 [] [(s.hl, n)] s _
    constructor <;>
      simp [State.dataReads, dataWrites, Memory.writeAll, State.writeOperand8]
  | rlca => exact portEffect_commitRotate (rlc s.a) s t h
  | rrca => exact portEffect_commitRotate (rrc s.a) s t h
  | rla => exact portEffect_commitRotate (rl s.a s.flags.c) s t h
  | rra => exact portEffect_commitRotate (rr s.a s.flags.c) s t h
  | ldR8R8 dst src => exact portEffect_moveOperand8 (.reg dst) (.reg src) s t h
  | ldR8HL dst => exact portEffect_moveOperand8 (.reg dst) .indirectHL s t h
  | ldHLR8 src => exact portEffect_moveOperand8 .indirectHL (.reg src) s t h
  | addA o =>
    cases o with
    | reg r => exact portEffect_accumulate (fun a v _ => addC a v false) (.reg r) s t h
    | indirectHL => exact portEffect_accumulate (fun a v _ => addC a v false) .indirectHL s t h
  | adcA o =>
    cases o with
    | reg r => exact portEffect_accumulate addC (.reg r) s t h
    | indirectHL => exact portEffect_accumulate addC .indirectHL s t h
  | subA o =>
    cases o with
    | reg r => exact portEffect_accumulate (fun a v _ => subC a v false) (.reg r) s t h
    | indirectHL => exact portEffect_accumulate (fun a v _ => subC a v false) .indirectHL s t h
  | sbcA o =>
    cases o with
    | reg r => exact portEffect_accumulate subC (.reg r) s t h
    | indirectHL => exact portEffect_accumulate subC .indirectHL s t h
  | andA o =>
    cases o with
    | reg r => exact portEffect_accumulate (fun a v _ => aluAnd a v) (.reg r) s t h
    | indirectHL => exact portEffect_accumulate (fun a v _ => aluAnd a v) .indirectHL s t h
  | xorA o =>
    cases o with
    | reg r => exact portEffect_accumulate (fun a v _ => aluXor a v) (.reg r) s t h
    | indirectHL => exact portEffect_accumulate (fun a v _ => aluXor a v) .indirectHL s t h
  | orA o =>
    cases o with
    | reg r => exact portEffect_accumulate (fun a v _ => aluOr a v) (.reg r) s t h
    | indirectHL => exact portEffect_accumulate (fun a v _ => aluOr a v) .indirectHL s t h
  | cpA o =>
    cases o with
    | reg r => exact portEffect_compareWith (fun a v _ => subC a v false) (.reg r) s t h
    | indirectHL => exact portEffect_compareWith (fun a v _ => subC a v false) .indirectHL s t h
  | unimplemented18 => cases h
  | unimplemented27 => cases h
  | unimplemented28 => cases h
  | unimplemented2F => cases h
  | unimplemented37 => cases h
  | unimplemented38 => cases h
  | unimplemented3F => cases h
  | reservedHalt => cases h
  | block3 opcode => cases h

/-- If an instruction fails, it has made the read of its opcode, and nothing else. -/
theorem exec_fault_eq (i : Instr) (s : State) (r : Fault) (h : exec i s = .fault r) :
    r = .unimplemented i.opcode s.pc s.afterFailure := by
  rw [← State.opcodeFetchOnly_eq]
  cases i with
  | nop p => exact absurd h nofun
  | ldR16Imm16 dst nn => exact absurd h nofun
  | ldR16memA m => exact absurd h nofun
  | ldAR16mem m => exact absurd h nofun
  | ldImm16SP nn => exact absurd h nofun
  | incR16 dst => exact absurd h nofun
  | decR16 dst => exact absurd h nofun
  | addHLR16 w => exact absurd h nofun
  | incR8 r => exact absurd h nofun
  | incHL => exact absurd h nofun
  | decR8 r => exact absurd h nofun
  | decHL => exact absurd h nofun
  | ldR8Imm8 dst n => exact absurd h nofun
  | ldHLImm8 n => exact absurd h nofun
  | rlca => exact absurd h nofun
  | rrca => exact absurd h nofun
  | rla => exact absurd h nofun
  | rra => exact absurd h nofun
  | unimplemented18 => exact (Host.Outcome.fault.inj h).symm
  | unimplemented27 => exact (Host.Outcome.fault.inj h).symm
  | unimplemented28 => exact (Host.Outcome.fault.inj h).symm
  | unimplemented2F => exact (Host.Outcome.fault.inj h).symm
  | unimplemented37 => exact (Host.Outcome.fault.inj h).symm
  | unimplemented38 => exact (Host.Outcome.fault.inj h).symm
  | unimplemented3F => exact (Host.Outcome.fault.inj h).symm
  | ldR8R8 dst src => exact absurd h nofun
  | ldR8HL dst => exact absurd h nofun
  | ldHLR8 src => exact absurd h nofun
  | reservedHalt => exact (Host.Outcome.fault.inj h).symm
  | addA o => cases o <;> exact absurd h nofun
  | adcA o => cases o <;> exact absurd h nofun
  | subA o => cases o <;> exact absurd h nofun
  | sbcA o => cases o <;> exact absurd h nofun
  | andA o => cases o <;> exact absurd h nofun
  | xorA o => cases o <;> exact absurd h nofun
  | orA o => cases o <;> exact absurd h nofun
  | cpA o => cases o <;> exact absurd h nofun
  | block3 opcode => exact (Host.Outcome.fault.inj h).symm

/-- Writing several bytes keeps the canonical form. -/
theorem Memory.wf_writeAll (ws : List (Word × Byte)) (m : Memory) (hm : m.wf = true) :
    (m.writeAll ws).wf = true := by
  induction ws generalizing m with
  | nil => exact hm
  | cons w ws ih => exact ih _ (Memory.wf_write m w.1 w.2 hm)

end Sys2Proof.Machine
end

