-- ==== Sys2Proof/Tests/Slice0.lean ====
section
/-! SUPPORT. Tests. Expected values come from spec/95_test_vectors.md (the vector is in the name) or
are written out from the encoding tables of spec/30_encoding.md; then, for every statement with
hypotheses, a state and operands that meet them. -/

namespace Sys2Proof.Tests

open Sys2Proof Sys2Proof.Machine

/-! ## Helpers -/

/-- Four flags from the order Z N H C the vectors use. -/
def fl (z n h c : Nat) : Flags := { z := z == 1, n := n == 1, h := h == 1, c := c == 1 }

/-- A vector's start: the registers of `s`, PC at 0x0100 and the bytes there. -/
def at0100 (bytes : List Byte) (s : State) : State := { s with pc := 0x0100 }.loadAtPc bytes

/-- A state with one more byte of memory. -/
def poke (addr : Word) (v : Byte) (s : State) : State :=
  { s with mem := s.mem.write addr.toNat v }

/-- What one step from `s` leaves in the place `f` looks at, or none if it does not complete. -/
def stepAt {α : Type} (s : State) (f : State → α) : Option α := (nextOf (step s)).map f

/-- The addresses of a step's transactions, true for a read. -/
def busOf (s : State) : List (Bool × Word) := s.bus.map fun x => (x.isRead, x.addr)

/-- What a step that fails reports, and the transactions it has made. -/
def failure (o : Result) : Option (Byte × Word × List (Bool × Word)) :=
  (faultOf o).map fun r => (r.opcode, r.pc, busOf r.after)

/-- The start of the fault vectors (section 2.8). -/
def faultStart : State :=
  { State.reset with a := 0x01, b := 0x02, c := 0x03, d := 0x04, e := 0x05, h := 0xC0,
                     sp := 0xFFFE, flags := fl 1 0 1 0 }

/-! ## Well-formedness: a block-3 term whose opcode is not in block 3 is refused -/

theorem test_wellFormed_refuses_block3_BF : (Instr.block3 0xBF).wellFormed = false := by decide

theorem test_wellFormed_admits_block3_C0 : (Instr.block3 0xC0).wellFormed = true := by decide

/-! ## Decoding: a word of every constructor, bit by bit from R82 (x yyy zzz or x pp q zzz) -/

theorem test_decode_nop :
    decodeTableWord 8 0b00110000 = some (.nop 3) := by
  decide

theorem test_decode_ldR16Imm16 :
    decodeTableWord 24 (0x123400 + 0b00000001) = some (.ldR16Imm16 .bc 0x1234) := by
  decide

theorem test_decode_ldR16Imm16_sp :
    decodeTableWord 24 (0xFFF800 + 0b00110001) = some (.ldR16Imm16 .sp 0xFFF8) := by
  decide

theorem test_decode_ldR16memA :
    decodeTableWord 8 0b00110010 = some (.ldR16memA .hlDec) := by
  decide

theorem test_decode_ldAR16mem :
    decodeTableWord 8 0b00011010 = some (.ldAR16mem .de) := by
  decide

theorem test_decode_ldImm16SP :
    decodeTableWord 24 (0xC10000 + 0b00001000) = some (.ldImm16SP 0xC100) := by
  decide

theorem test_decode_incR16 :
    decodeTableWord 8 0b00110011 = some (.incR16 .sp) := by
  decide

theorem test_decode_decR16 :
    decodeTableWord 8 0b00101011 = some (.decR16 .hl) := by
  decide

theorem test_decode_addHLR16 :
    decodeTableWord 8 0b00011001 = some (.addHLR16 .de) := by
  decide

theorem test_decode_incR8 :
    decodeTableWord 8 0b00011100 = some (.incR8 .e) := by
  decide

theorem test_decode_incHL :
    decodeTableWord 8 0b00110100 = some .incHL := by
  decide

theorem test_decode_decR8 :
    decodeTableWord 8 0b00100101 = some (.decR8 .h) := by
  decide

theorem test_decode_decHL :
    decodeTableWord 8 0b00110101 = some .decHL := by
  decide

theorem test_decode_ldR8Imm8 :
    decodeTableWord 16 (0x4200 + 0b00101110) = some (.ldR8Imm8 .l 0x42) := by
  decide

theorem test_decode_ldHLImm8 :
    decodeTableWord 16 (0x9900 + 0b00110110) = some (.ldHLImm8 0x99) := by
  decide

theorem test_decode_rlca :
    decodeTableWord 8 0b00000111 = some .rlca := by
  decide

theorem test_decode_rrca :
    decodeTableWord 8 0b00001111 = some .rrca := by
  decide

theorem test_decode_rla :
    decodeTableWord 8 0b00010111 = some .rla := by
  decide

theorem test_decode_rra :
    decodeTableWord 8 0b00011111 = some .rra := by
  decide

theorem test_decode_unimplemented18 :
    decodeTableWord 8 0b00011000 = some .unimplemented18 := by
  decide

theorem test_decode_unimplemented27 :
    decodeTableWord 8 0b00100111 = some .unimplemented27 := by
  decide

theorem test_decode_unimplemented28 :
    decodeTableWord 8 0b00101000 = some .unimplemented28 := by
  decide

theorem test_decode_unimplemented2F :
    decodeTableWord 8 0b00101111 = some .unimplemented2F := by
  decide

theorem test_decode_unimplemented37 :
    decodeTableWord 8 0b00110111 = some .unimplemented37 := by
  decide

theorem test_decode_unimplemented38 :
    decodeTableWord 8 0b00111000 = some .unimplemented38 := by
  decide

theorem test_decode_unimplemented3F :
    decodeTableWord 8 0b00111111 = some .unimplemented3F := by
  decide

theorem test_decode_ldR8R8 :
    decodeTableWord 8 0b01001111 = some (.ldR8R8 .c .a) := by
  decide

theorem test_decode_ldR8HL :
    decodeTableWord 8 0b01010110 = some (.ldR8HL .d) := by
  decide

theorem test_decode_ldHLR8 :
    decodeTableWord 8 0b01110101 = some (.ldHLR8 .l) := by
  decide

theorem test_decode_reservedHalt :
    decodeTableWord 8 0b01110110 = some .reservedHalt := by
  decide

theorem test_decode_addA :
    decodeTableWord 8 0b10000110 = some (.addA .indirectHL) := by
  decide

theorem test_decode_adcA :
    decodeTableWord 8 0b10001010 = some (.adcA (.reg .d)) := by
  decide

theorem test_decode_subA :
    decodeTableWord 8 0b10010000 = some (.subA (.reg .b)) := by
  decide

theorem test_decode_sbcA :
    decodeTableWord 8 0b10011011 = some (.sbcA (.reg .e)) := by
  decide

theorem test_decode_andA :
    decodeTableWord 8 0b10100111 = some (.andA (.reg .a)) := by
  decide

theorem test_decode_xorA :
    decodeTableWord 8 0b10101001 = some (.xorA (.reg .c)) := by
  decide

theorem test_decode_orA :
    decodeTableWord 8 0b10110101 = some (.orA (.reg .l)) := by
  decide

theorem test_decode_cpA :
    decodeTableWord 8 0b10111100 = some (.cpA (.reg .h)) := by
  decide

theorem test_decode_block3 :
    decodeTableWord 8 0b11001011 = some (.block3 0xCB) := by
  decide

/-- An opcode whose immediates are missing does not decode, whatever follows is left over. -/
theorem test_decode_short_and_rest :
    decode [0x21, 0x34] = .error .noImm16 ∧ decode [0x3E] = .error .noImm8 ∧
    decode [] = .error .noOpcode ∧ decode [0x3E, 0x42, 0x07] = .ok (.ldR8Imm8 .a 0x42, [0x07]) :=
  ⟨rfl, rfl, rfl, rfl⟩

/-! ## One step on a small state (spec/95_test_vectors.md section 2) -/

theorem test_V2_nop :
    stepAt (at0100 [0x10, 0xAA] { State.reset with flags := fl 0 1 0 1 })
      (fun t => (t.flags, t.pc)) =
    some (fl 0 1 0 1, 0x0101) := by
  decide

theorem test_V5_nop :
    stepAt (({ State.reset with pc := 0xFFFF } : State).loadAtPc [0x00])
      (fun t => (t.flags, t.pc)) =
    some (fl 0 0 0 0, 0x0000) := by
  decide

theorem test_V7_ldR16Imm16 :
    stepAt (at0100 [0x11, 0xEF, 0xBE] State.reset)
      (fun t => (t.d, t.e, t.flags, t.pc)) =
    some (0xBE, 0xEF, fl 0 0 0 0, 0x0103) := by
  decide

theorem test_V10_ldR16Imm16 :
    stepAt (({ State.reset with pc := 0xFFFE } : State).loadAtPc [0x21, 0xCD, 0xAB])
      (fun t => (t.h, t.l, t.pc, busOf t)) =
    some (0xAB, 0xCD, 0x0001, [(true, 0xFFFE), (true, 0xFFFF), (true, 0x0000)]) := by
  decide

theorem test_V13_ldR16memA :
    stepAt (at0100 [0x22] { State.reset with a := 0x5A, h := 0xC0, l := 0xFF })
      (fun t => (t.h, t.l, t.mem.read 0xC0FF, t.flags, t.pc)) =
    some (0xC1, 0x00, 0x5A, fl 0 0 0 0, 0x0101) := by
  decide

theorem test_V16_ldR16memA :
    stepAt (at0100 [0x32] { State.reset with a := 0x22, h := 0x00, l := 0x00 })
      (fun t => (t.h, t.l, t.mem.read 0x0000, t.flags, t.pc)) =
    some (0xFF, 0xFF, 0x22, fl 0 0 0 0, 0x0101) := by
  decide

theorem test_V17_ldAR16mem :
    stepAt (poke 0xC123 0x9C (at0100 [0x0A] { State.reset with b := 0xC1, c := 0x23 }))
      (fun t => (t.a, t.flags, t.pc)) =
    some (0x9C, fl 0 0 0 0, 0x0101) := by
  decide

theorem test_V20_ldAR16mem :
    stepAt (poke 0x0000 0x77 (at0100 [0x3A] { State.reset with h := 0x00, l := 0x00 }))
      (fun t => (t.h, t.l, t.a, t.flags, t.pc)) =
    some (0xFF, 0xFF, 0x77, fl 0 0 0 0, 0x0101) := by
  decide

theorem test_V21_ldImm16SP :
    stepAt (at0100 [0x08, 0x00, 0xC1] { State.reset with sp := 0xFFF8 })
      (fun t => (t.mem.read 0xC100, t.mem.read 0xC101, t.flags, t.pc)) =
    some (0xF8, 0xFF, fl 0 0 0 0, 0x0103) := by
  decide

theorem test_V22_ldImm16SP :
    stepAt (at0100 [0x08, 0xFF, 0xFF] { State.reset with sp := 0x1234 })
      (fun t => (t.mem.read 0xFFFF, t.mem.read 0x0000, t.pc, busOf t)) =
    some (0x34, 0x12, 0x0103,
      [(true, 0x0100), (true, 0x0101), (true, 0x0102), (false, 0xFFFF), (false, 0x0000)]) := by
  decide

theorem test_V23_incR16 :
    stepAt (at0100 [0x03] { State.reset with b := 0x00, c := 0xFF, flags := fl 1 1 1 1 })
      (fun t => (t.b, t.c, t.flags, t.pc)) =
    some (0x01, 0x00, fl 1 1 1 1, 0x0101) := by
  decide

theorem test_V26_incR16 :
    stepAt (at0100 [0x33] { State.reset with sp := 0xFFFF })
      (fun t => (t.sp, t.flags, t.pc)) =
    some (0x0000, fl 0 0 0 0, 0x0101) := by
  decide

theorem test_V27_decR16 :
    stepAt (at0100 [0x0B] { State.reset with b := 0x00, c := 0x00 })
      (fun t => (t.b, t.c, t.flags, t.pc)) =
    some (0xFF, 0xFF, fl 0 0 0 0, 0x0101) := by
  decide

theorem test_V28_decR16 :
    stepAt (at0100 [0x1B] { State.reset with d := 0x01, e := 0x00 })
      (fun t => (t.d, t.e, t.flags, t.pc)) =
    some (0x00, 0xFF, fl 0 0 0 0, 0x0101) := by
  decide

theorem test_V31_addHLR16 :
    stepAt (at0100 [0x09]
      { State.reset with h := 0x0F, l := 0xFF, b := 0x00, c := 0x01, flags := fl 1 1 0 1 })
      (fun t => (t.h, t.l, t.flags, t.pc)) =
    some (0x10, 0x00, fl 1 0 1 0, 0x0101) := by
  decide

theorem test_V35_addHLR16 :
    stepAt (at0100 [0x39]
      { State.reset with h := 0x00, l := 0xFF, sp := 0x0001, flags := fl 1 1 1 1 })
      (fun t => (t.h, t.l, t.flags, t.pc)) =
    some (0x01, 0x00, fl 1 0 0 0, 0x0101) := by
  decide

theorem test_V46_incR8 :
    stepAt (at0100 [0x3C] { State.reset with a := 0xFF, flags := fl 0 0 0 1 })
      (fun t => (t.a, t.flags, t.pc)) =
    some (0x00, fl 1 0 1 1, 0x0101) := by
  decide

theorem test_V45_incR8 :
    stepAt (at0100 [0x2C] { State.reset with h := 0x12, l := 0xFF })
      (fun t => (t.l, t.flags, t.pc)) =
    some (0x00, fl 1 0 1 0, 0x0101) := by
  decide

theorem test_V48_incHL :
    stepAt (poke 0xC000 0xFF (at0100 [0x34]
      { State.reset with h := 0xC0, l := 0x00, flags := fl 0 0 0 1 }))
      (fun t => (t.mem.read 0xC000, t.pc, busOf t)) =
    some (0x00, 0x0101, [(true, 0x0100), (true, 0xC000), (false, 0xC000)]) := by
  decide

theorem test_V49_decR8 :
    stepAt (at0100 [0x05] { State.reset with b := 0x00, flags := fl 0 0 0 1 })
      (fun t => (t.b, t.flags, t.pc)) =
    some (0xFF, fl 0 1 1 1, 0x0101) := by
  decide

theorem test_V50_decR8 :
    stepAt (at0100 [0x0D] { State.reset with c := 0x01 })
      (fun t => (t.c, t.flags, t.pc)) =
    some (0x00, fl 1 1 0 0, 0x0101) := by
  decide

theorem test_V57_decHL :
    stepAt (poke 0xC000 0x00 (at0100 [0x35] { State.reset with h := 0xC0, l := 0x00 }))
      (fun t => (t.mem.read 0xC000, t.flags, t.pc)) =
    some (0xFF, fl 0 1 1 0, 0x0101) := by
  decide

theorem test_V64_ldR8Imm8 :
    stepAt (at0100 [0x3E, 0x42] { State.reset with flags := fl 1 1 1 1 })
      (fun t => (t.a, t.flags, t.pc)) =
    some (0x42, fl 1 1 1 1, 0x0102) := by
  decide

theorem test_V66_ldR8Imm8 :
    stepAt (({ State.reset with pc := 0xFFFF } : State).loadAtPc [0x3E, 0x42])
      (fun t => (t.a, t.flags, t.pc)) =
    some (0x42, fl 0 0 0 0, 0x0001) := by
  decide

theorem test_V65_ldHLImm8 :
    stepAt (at0100 [0x36, 0x99] { State.reset with h := 0xC1, l := 0x23 })
      (fun t => (t.mem.read 0xC123, t.flags, t.pc)) =
    some (0x99, fl 0 0 0 0, 0x0102) := by
  decide

theorem test_V67_rlca :
    stepAt (at0100 [0x07] { State.reset with a := 0x85, flags := fl 1 1 1 0 })
      (fun t => (t.a, t.flags, t.pc)) =
    some (0x0B, fl 0 0 0 1, 0x0101) := by
  decide

theorem test_V68_rlca :
    stepAt (at0100 [0x07] { State.reset with a := 0x00, flags := fl 1 1 1 1 })
      (fun t => (t.a, t.flags, t.pc)) =
    some (0x00, fl 0 0 0 0, 0x0101) := by
  decide

theorem test_V70_rrca :
    stepAt (at0100 [0x0F] { State.reset with a := 0x3B })
      (fun t => (t.a, t.flags, t.pc)) =
    some (0x9D, fl 0 0 0 1, 0x0101) := by
  decide

theorem test_V71_rrca :
    stepAt (at0100 [0x0F] { State.reset with a := 0x01, flags := fl 1 0 0 0 })
      (fun t => (t.a, t.flags, t.pc)) =
    some (0x80, fl 0 0 0 1, 0x0101) := by
  decide

theorem test_V73_rla :
    stepAt (at0100 [0x17] { State.reset with a := 0x95, flags := fl 0 0 0 1 })
      (fun t => (t.a, t.flags, t.pc)) =
    some (0x2B, fl 0 0 0 1, 0x0101) := by
  decide

theorem test_V75_rla :
    stepAt (at0100 [0x17] { State.reset with a := 0x00, flags := fl 1 1 1 1 })
      (fun t => (t.a, t.flags, t.pc)) =
    some (0x01, fl 0 0 0 0, 0x0101) := by
  decide

theorem test_V77_rra :
    stepAt (at0100 [0x1F] { State.reset with a := 0x01 })
      (fun t => (t.a, t.flags, t.pc)) =
    some (0x00, fl 0 0 0 1, 0x0101) := by
  decide

theorem test_V78_rra :
    stepAt (at0100 [0x1F] { State.reset with a := 0x00, flags := fl 1 1 1 1 })
      (fun t => (t.a, t.flags, t.pc)) =
    some (0x80, fl 0 0 0 0, 0x0101) := by
  decide

theorem test_V80_ldR8R8 :
    stepAt (at0100 [0x78] { State.reset with b := 0x12, flags := fl 1 1 1 1 })
      (fun t => (t.a, t.flags, t.pc)) =
    some (0x12, fl 1 1 1 1, 0x0101) := by
  decide

theorem test_V83_ldR8R8 :
    stepAt (at0100 [0x6C] { State.reset with h := 0xAB, l := 0x00 })
      (fun t => (t.l, t.flags, t.pc)) =
    some (0xAB, fl 0 0 0 0, 0x0101) := by
  decide

theorem test_V86_ldR8HL :
    stepAt (poke 0xC000 0x12 (at0100 [0x66] { State.reset with h := 0xC0, l := 0x00 }))
      (fun t => (t.h, t.flags, t.pc)) =
    some (0x12, fl 0 0 0 0, 0x0101) := by
  decide

theorem test_V88_ldR8HL :
    stepAt (poke 0xFFFF 0x80 (at0100 [0x7E] { State.reset with h := 0xFF, l := 0xFF }))
      (fun t => (t.a, t.flags, t.pc)) =
    some (0x80, fl 0 0 0 0, 0x0101) := by
  decide

theorem test_V90_ldHLR8 :
    stepAt (at0100 [0x74] { State.reset with h := 0xC0, l := 0x34 })
      (fun t => (t.mem.read 0xC034, t.flags, t.pc)) =
    some (0xC0, fl 0 0 0 0, 0x0101) := by
  decide

theorem test_V91_ldHLR8 :
    stepAt (at0100 [0x75] { State.reset with h := 0xC0, l := 0x34 })
      (fun t => (t.mem.read 0xC034, t.flags, t.pc)) =
    some (0x34, fl 0 0 0 0, 0x0101) := by
  decide

theorem test_V93_reservedHalt :
    failure (step (poke 0xC000 0x55 (at0100 [0x76]
      { State.reset with a := 0x01, h := 0xC0, l := 0x00, flags := fl 1 0 0 1 }))) =
      some (0x76, 0x0100, [(true, 0x0100)]) := by
  decide

theorem test_V103_addA :
    stepAt (poke 0xC000 0xC6 (at0100 [0x86] { State.reset with a := 0x3A, h := 0xC0, l := 0x00 }))
      (fun t => (t.a, t.flags, t.pc)) =
    some (0x00, fl 1 0 1 1, 0x0101) := by
  decide

theorem test_V105_addA :
    stepAt (at0100 [0x83] { State.reset with a := 0x01, e := 0x01, flags := fl 0 0 0 1 })
      (fun t => (t.a, t.flags, t.pc)) =
    some (0x02, fl 0 0 0 0, 0x0101) := by
  decide

theorem test_V107_adcA :
    stepAt (at0100 [0x89] { State.reset with a := 0xFF, c := 0xFF, flags := fl 0 0 0 1 })
      (fun t => (t.a, t.flags, t.pc)) =
    some (0xFF, fl 0 0 1 1, 0x0101) := by
  decide

theorem test_V109_adcA :
    stepAt (poke 0xC000 0x1E (at0100 [0x8E]
      { State.reset with a := 0xE1, h := 0xC0, l := 0x00, flags := fl 0 0 0 1 }))
      (fun t => (t.a, t.flags, t.pc)) =
    some (0x00, fl 1 0 1 1, 0x0101) := by
  decide

theorem test_V112_subA :
    stepAt (at0100 [0x90] { State.reset with a := 0x3E, b := 0x40 })
      (fun t => (t.a, t.flags, t.pc)) =
    some (0xFE, fl 0 1 0 1, 0x0101) := by
  decide

theorem test_V116_subA :
    stepAt (at0100 [0x97] { State.reset with a := 0xA7, flags := fl 0 0 0 1 })
      (fun t => (t.a, t.flags, t.pc)) =
    some (0x00, fl 1 1 0 0, 0x0101) := by
  decide

theorem test_V119_sbcA :
    stepAt (at0100 [0x9A] { State.reset with a := 0x00, d := 0xFF, flags := fl 0 0 0 1 })
      (fun t => (t.a, t.flags, t.pc)) =
    some (0x00, fl 1 1 1 1, 0x0101) := by
  decide

theorem test_V123_sbcA :
    stepAt (at0100 [0x9B] { State.reset with a := 0x10, e := 0x0F, flags := fl 0 0 0 1 })
      (fun t => (t.a, t.flags, t.pc)) =
    some (0x00, fl 1 1 1 0, 0x0101) := by
  decide

theorem test_V124_andA :
    stepAt (at0100 [0xA0] { State.reset with a := 0x5A, b := 0x3F, flags := fl 0 1 0 1 })
      (fun t => (t.a, t.flags, t.pc)) =
    some (0x1A, fl 0 0 1 0, 0x0101) := by
  decide

theorem test_V127_andA :
    stepAt (at0100 [0xA7] { State.reset with a := 0x00, flags := fl 0 0 0 1 })
      (fun t => (t.a, t.flags, t.pc)) =
    some (0x00, fl 1 0 1 0, 0x0101) := by
  decide

theorem test_V128_xorA :
    stepAt (at0100 [0xA8] { State.reset with a := 0x5A, b := 0x3F, flags := fl 1 1 1 1 })
      (fun t => (t.a, t.flags, t.pc)) =
    some (0x65, fl 0 0 0 0, 0x0101) := by
  decide

theorem test_V130_xorA :
    stepAt (at0100 [0xAF] { State.reset with a := 0xC3, flags := fl 0 1 1 1 })
      (fun t => (t.a, t.flags, t.pc)) =
    some (0x00, fl 1 0 0 0, 0x0101) := by
  decide

theorem test_V131_orA :
    stepAt (at0100 [0xB0] { State.reset with a := 0x5A, b := 0x3F, flags := fl 1 1 1 1 })
      (fun t => (t.a, t.flags, t.pc)) =
    some (0x7F, fl 0 0 0 0, 0x0101) := by
  decide

theorem test_V132_orA :
    stepAt (poke 0xC000 0x00 (at0100 [0xB6] { State.reset with a := 0x00, h := 0xC0, l := 0x00 }))
      (fun t => (t.a, t.flags, t.pc)) =
    some (0x00, fl 1 0 0 0, 0x0101) := by
  decide

theorem test_V134_cpA :
    stepAt (at0100 [0xB8] { State.reset with a := 0x3C, b := 0x2F })
      (fun t => (t.a, t.flags, t.pc)) =
    some (0x3C, fl 0 1 1 0, 0x0101) := by
  decide

theorem test_V137_cpA :
    stepAt (poke 0xC000 0x01 (at0100 [0xBE] { State.reset with a := 0x00, h := 0xC0, l := 0x00 }))
      (fun t => (t.a, t.flags, t.pc)) =
    some (0x00, fl 0 1 1 1, 0x0101) := by
  decide

theorem test_V150_unimplemented18 :
    failure (step (at0100 [0x18, 0x12, 0x34] faultStart)) =
      some (0x18, 0x0100, [(true, 0x0100)]) := by
  decide

theorem test_V151_unimplemented27 :
    failure (step (at0100 [0x27, 0x12, 0x34] faultStart)) =
      some (0x27, 0x0100, [(true, 0x0100)]) := by
  decide

theorem test_V152_unimplemented28 :
    failure (step (at0100 [0x28, 0x12, 0x34] faultStart)) =
      some (0x28, 0x0100, [(true, 0x0100)]) := by
  decide

theorem test_V153_unimplemented2F :
    failure (step (at0100 [0x2F, 0x12, 0x34] faultStart)) =
      some (0x2F, 0x0100, [(true, 0x0100)]) := by
  decide

theorem test_V154_unimplemented37 :
    failure (step (at0100 [0x37, 0x12, 0x34] faultStart)) =
      some (0x37, 0x0100, [(true, 0x0100)]) := by
  decide

theorem test_V155_unimplemented38 :
    failure (step (at0100 [0x38, 0x12, 0x34] faultStart)) =
      some (0x38, 0x0100, [(true, 0x0100)]) := by
  decide

theorem test_V156_unimplemented3F :
    failure (step (at0100 [0x3F, 0x12, 0x34] faultStart)) =
      some (0x3F, 0x0100, [(true, 0x0100)]) := by
  decide

theorem test_V158_block3 :
    failure (step (at0100 [0xC3, 0x12, 0x34] faultStart)) =
      some (0xC3, 0x0100, [(true, 0x0100)]) := by
  decide

theorem test_V159_block3 :
    failure (step (at0100 [0xCB, 0x12, 0x34] faultStart)) =
      some (0xCB, 0x0100, [(true, 0x0100)]) := by
  decide

/-- V158 to the end: every register, flag and byte, SP and PC are as before, and the oracle has given
one answer. -/
theorem test_V158_after :
    (faultOf (step { faultStart with answers := [0xC3, 0x12] })).map Fault.after =
      some { faultStart with answers := [0x12], bus := [.read 0x0000 0xC3] } := by
  decide

/-! ## Placing an instruction, the open form, the REG port -/

/-- The document's E8: `3E 42` on a fresh core. -/
theorem test_E8_withFetchWord :
    stepAt (State.reset.withFetchWord 16 0x423E) (fun t => (t.a, t.pc)) = some (0x42, 0x0002) := by
  decide

/-- The oracle answers the fetches and the data read in turn, whatever memory holds (R53). -/
theorem test_open_form_ldAR16mem :
    stepAt { State.reset with answers := [0x0A, 0x77, 0x99] }
      (fun t => (t.a, t.answers, t.bus)) =
    some (0x77, [0x99], [.read 0x0000 0x0A, .read 0x0000 0x77]) := by
  decide

/-- Section 2.2, the rows of `set_register16(AF, v)`. -/
theorem test_set_af :
    [0x12FF, 0x000F, 0xABCD, 0x0090, 0x5A5A].map (fun v =>
      let s := hostAct (.setRegister16 .af v) State.reset
      (s.a, s.flags, s.getR16 .af)) =
    [(0x12, fl 1 1 1 1, 0x12F0), (0x00, fl 0 0 0 0, 0x0000), (0xAB, fl 1 1 0 0, 0xABC0),
      (0x00, fl 1 0 0 1, 0x0090), (0x5A, fl 0 1 0 1, 0x5A50)] := by
  decide

/-- Section 2.2, the row of `set_flags` with the mask of ADD HL,r16. -/
theorem test_set_flags :
    (hostAct (.setFlags (fl 0 0 1 1) (fl 0 1 1 1)) { State.reset with flags := fl 1 0 0 0 }).flags =
      fl 1 0 1 1 := by
  decide

/-- Writing what an unlisted address reads as removes the cell, so memories stay comparable. -/
theorem test_memory_canonical :
    ((Memory.write [] 0xC000 0x55).write 0xFFFF 0x01).write 0xC000 0x00 = [(0xFFFF, 0x01)] := by
  decide

/-! ## Witnesses: a state and operands that meet the hypotheses of each statement -/

/-- LD [HL],A at 0x0000 with HL at 0xFFFF, the last address. -/
def storing : State := { State.reset with a := 0xEE, h := 0xFF, l := 0xFF, mem := [(0, 0x77)] }

theorem witness_SameRegsBut : R8.b ∉ [R8.a] ∧ R8.l ∉ [R8.b, R8.c] := by decide

theorem witness_RotatesMoveEveryBit : 0 < 8 ∧ 7 < 8 := by decide

theorem witness_MemoryReadsLastWrite :
    Memory.wf [(0, 0x77), (0xFFFF, 0x01)] = true ∧ 0xFFFF ≠ (0x0000 : Word).toNat := by decide

theorem witness_MemoryFormIsCanonical :
    ∃ m m' : Memory, m.wf = true ∧ m'.wf = true ∧ m ≠ [] ∧ ∀ x, m.read x = m'.read x :=
  ⟨[(0xC000, 0x01)], (Memory.write [] 0xC000 0x02).write 0xC000 0x01, by decide, by decide,
    by decide, fun _ => rfl⟩

theorem witness_PortMovesOneByte :
    storing.answers = [] ∧ { storing with answers := [0x12, 0x34] }.answers = 0x12 :: [0x34] := by
  decide

theorem witness_DecodeReadsBackEncode :
    (Instr.ldImm16SP 0xFFFF).wellFormed = true ∧ (Instr.block3 0xC0).wellFormed = true ∧
      (Instr.block3 0xFF).wellFormed = true := by
  decide

theorem witness_EncodeGivesBackDecodedBytes :
    decode [0x36, 0xFF, 0xC0] = .ok (.ldHLImm8 0xFF, [0xC0]) ∧
      decode [0xC0] = .ok (.block3 0xC0, []) := ⟨rfl, rfl⟩

theorem witness_FaultCauses :
    faultCause 0xC0 = some .block3 ∧ faultCause 0xFF = some .block3 ∧ faultCause 0xBF = none ∧
    faultCause 0x76 = some .reservedHalt ∧ faultCause 0x75 = none ∧ faultCause 0x77 = none ∧
    faultCause 0x18 = some .block0Uncovered ∧ faultCause 0x3F = some .block0Uncovered ∧
    faultCause 0x40 = none := by
  decide

theorem witness_OpcodeLengths :
    opcodeLength 0x31 = some 3 ∧ opcodeLength 0x08 = some 3 ∧ opcodeLength 0x06 = some 2 ∧
    opcodeLength 0x3E = some 2 ∧ opcodeLength 0x00 = some 1 ∧ opcodeLength 0xBF = some 1 ∧
    opcodeLength 0xC0 = none := by
  decide

theorem witness_LoadPairImmediate : R16.bc ≠ .sp ∧ R16.hl ≠ .sp := by decide

theorem witness_StepPairWithoutFlags : R16.de ≠ .sp := by decide

/-- For LD [r16mem],A, LD [imm16],SP, INC [HL], DEC [HL], LD [HL],imm8 and LD [HL],r8. -/
theorem witness_stores : storing.mem.wf = true ∧ storing.hl = 0xFFFF := by decide

theorem witness_StoreSpAtImmediate :
    ∃ t, exec (.ldImm16SP 0xFFFF) storing = .next t ∧ storing.mem.wf = true := ⟨_, rfl, rfl⟩

theorem witness_StepRunsTheInstructionAtPc_decoded :
    let s : State := { storing with answers := [0x3E, 0x42] }
    decode [s.fetchedByte 0, s.fetchedByte 1, s.fetchedByte 2] = .ok (.ldR8Imm8 .a 0x42, [0x00]) :=
  rfl

/-- The instruction's bytes at 0xFFFF and 0x0000. -/
theorem witness_StepRunsTheInstructionAtPc_encoded :
    let s : State := { State.reset with pc := 0xFFFF, mem := [(0, 0x42), (0xFFFF, 0x3E)] }
    (Instr.ldR8Imm8 .a 0x42).wellFormed = true ∧ s.answers = [] ∧
    ∀ k, k < (encode (.ldR8Imm8 .a 0x42)).length →
      (encode (.ldR8Imm8 .a 0x42))[k]? = some (s.mem.read ((s.pc.toNat + k) % 65536)) := by
  decide

theorem witness_FaultExactlyOnUnimplementedOpcodes :
    ∃ r, step { State.reset with mem := [(0, 0xC3)] } = .fault r := ⟨_, rfl⟩

/-- For PcAdvancesByLength and, with the next one, StepTransactionsFetchesReadsWrites and
StepKeepsMemoryCanonical. -/
theorem witness_completed_step :
    ∃ t, storing.Inv ∧ step storing = .next t ∧ Leaves storing t := ⟨_, rfl, rfl, .inl rfl⟩

/-- The same for a step that fails. -/
theorem witness_failed_step :
    let s : State := { State.reset with mem := [(0, 0xC3)] }
    ∃ r t, s.Inv ∧ step s = .fault r ∧ Leaves s t := ⟨_, _, rfl, rfl, .inr ⟨_, rfl, rfl⟩⟩

/-- The instruction 0x77 is LD [HL],A: it commits no flag and leaves SP. -/
theorem witness_OnlyStoredAddressesChange :
    ∃ t, exec (.ldHLR8 .a) storing = .next t := ⟨_, rfl⟩

theorem witness_FlagsAndSpWrittenOnlyByTheirInstructions :
    ∃ t t', exec (.ldHLR8 .a) storing = .next t ∧ (Instr.ldHLR8 .a).commitsFlags = false ∧
      (Instr.ldHLR8 .a).writesSP = false ∧
      exec (.ldHLR8 .a) { storing with sp := 0xFFFE } = .next t' := ⟨_, _, rfl, rfl, rfl, rfl⟩

theorem witness_HostActsKeepMemoryCanonical : storing.Inv := rfl

theorem witness_StepKeepsHistoryConsistent :
    ∃ t, ClosedFrom [(0, 0x77)] storing ∧ Leaves storing t := ⟨_, ⟨rfl, rfl⟩, .inl rfl⟩

theorem witness_ReadReturnsLatestEarlierWrite :
    Memory.wf [(0, 0x77)] = true ∧
    replay [(0, 0x77)] ([.write 0xFFFF 0x01, .read 0x0000 0x77] ++ .read 0xFFFF 0x01 :: []) =
      some [(0, 0x77), (0xFFFF, 0x01)] := ⟨rfl, rfl⟩

theorem witness_CarryReadOnlyByFourInstructions : (Instr.addA .indirectHL).readsCarry = false := by
  decide

/-- LD [HL],A at 0xFFFE stores RRA at 0xFFFF. -/
theorem witness_StoredOpcodeIsFetchedNext :
    let s : State :=
      { State.reset with a := 0x1F, h := 0xFF, l := 0xFF, pc := 0xFFFE, mem := [(0xFFFE, 0x77)] }
    s.Inv ∧ s.answers = [] ∧ s.hl = s.pc + 1 ∧ Instr.rra.wellFormed = true ∧
      encode .rra = [s.getR8 .a] ∧ ∃ t, exec (.ldHLR8 .a) s = .next t :=
  ⟨rfl, rfl, rfl, rfl, rfl, ⟨_, rfl⟩⟩

/-- 0xC3 faults; a write of SP and a construction at PC 0 leave PC, memory and answers. -/
theorem witness_FaultRecurs :
    let s : State := { State.reset with mem := [(0, 0xC3)] }
    (∃ r, step s = .fault r) ∧ s.answers = [] ∧
    ((hostAct (.setRegister16 .sp 0xFFFF) s).pc = s.pc ∧
      (hostAct (.setRegister16 .sp 0xFFFF) s).mem = s.mem ∧
      (hostAct (.setRegister16 .sp 0xFFFF) s).answers = s.answers) ∧
    ((hostAct .construct s).pc = s.pc ∧ (hostAct .construct s).mem = s.mem ∧
      (hostAct .construct s).answers = s.answers) :=
  ⟨⟨_, rfl⟩, rfl, ⟨rfl, rfl, rfl⟩, ⟨rfl, rfl, rfl⟩⟩

end Sys2Proof.Tests
end

section
/-! The Register File (spec/10_state.md): the laws of its accessors, and the statements about
reset, 8-bit access, the pairs and the masked commit. -/

namespace Sys2Proof.Machine

/-! ## Reset and construction -/

@[simp] theorem State.getR8_reset (r : R8) : State.reset.getR8 r = 0x00 := by
  cases r <;> rfl

@[simp] theorem State.getR16_reset (n : Reg16) : State.reset.getR16 n = 0x0000 := by
  cases n <;> rfl

@[simp] theorem State.getR8_constructed (s : State) (r : R8) :
    s.constructed.getR8 r = State.reset.getR8 r := by
  cases r <;> rfl

/-! ## 8-bit access -/

theorem r8_mem_cells (r : R8) : r ∈ [R8.a, .b, .c, .d, .e, .h, .l] := by
  cases r <;> decide

theorem State.setR8_sameRegsBut (s : State) (r : R8) (v : Byte) :
    SameRegsBut [r] s (s.setR8 r v) := fun q hq =>
  s.getR8_setR8_of_ne r q v (List.ne_of_not_mem_cons hq)

/-! ## The pairs -/

/-- What a flag vector keeps of a byte written to F: the high nibble (R25). -/
theorem Flags.toF_ofF_toNat (v : Byte) : (Flags.ofF v).toF.toNat = v.toNat / 16 * 16 := by
  revert v; decide

/-- AF is left out: the low nibble of a value written to it is discarded (R25). -/
theorem State.getR16_setR16_self (s : State) (n : Reg16) (v : Word) (h : n ≠ .af) :
    (s.setR16 n v).getR16 n = v := by
  cases n with
  | af => exact absurd rfl h
  | bc | de | hl => exact wordOf_hiByte_loByte v
  | sp | pc => rfl

/-- The flags after a write of AF, seen through the view F. -/
theorem State.setR16_af_toF_toNat (s : State) (v : Word) :
    (s.setR16 .af v).flags.toF.toNat = v.toNat % 256 / 16 * 16 :=
  calc (s.setR16 .af v).flags.toF.toNat
    _ = (loByte v).toNat / 16 * 16 := Flags.toF_ofF_toNat (loByte v)
    _ = v.toNat % 256 / 16 * 16 := by rw [loByte_toNat]

/-! ## The masked commit -/

theorem commitFlag_eq_ite (mask new old : Bool) :
    commitFlag mask new old = if mask = true then new else old := rfl

/-! ## The statements -/

/-- Settles O1: the constructed core reads as the reset state, whose cells and pairs are 0. -/
theorem resetZeroesRegisterFile : Obligations.ResetZeroesRegisterFile := by
  unfold Obligations.ResetZeroesRegisterFile
  have hconstruct : ∀ s r, (hostAct .construct s).getR8 r = 0x00 := fun s r =>
    (s.getR8_constructed r).trans (State.getR8_reset r)
  exact ⟨State.getR8_reset, rfl, rfl, State.getR16_reset, rfl, rfl, ⟨_, State.fetch8_bus _⟩,
    fun s => ⟨hconstruct s, rfl, rfl, rfl, rfl, rfl⟩⟩

/-- Settles O2 by the laws of `setR8`, one for each field and one for the other cells. -/
theorem register8AccessIsDirect : Obligations.Register8AccessIsDirect := by
  unfold Obligations.Register8AccessIsDirect
  intro s r v
  exact ⟨r8_mem_cells r, ⟨rfl, rfl, rfl, rfl, rfl, rfl, rfl⟩, s.getR8_setR8_self r v,
    s.setR8_sameRegsBut r v, s.setR8_flags r v, s.setR8_sp r v, s.setR8_pc r v, s.setR8_mem r v,
    s.setR8_answers r v, s.setR8_bus r v⟩

/-- Settles O3: a read is `wordOf` of the halves, a write splits the word by `hiByte` and `loByte`,
and the two are inverse to each other but for the low nibble of F. -/
theorem pairsComposeFromHalves : Obligations.PairsComposeFromHalves := by
  unfold Obligations.PairsComposeFromHalves
  intro s v
  have hhi := hiByte_toNat v
  have hlo := loByte_toNat v
  exact ⟨wordOf_toNat s.b s.c, wordOf_toNat s.d s.e, wordOf_toNat s.h s.l,
    wordOf_toNat s.a s.flags.toF, ⟨hhi, hlo, rfl⟩, ⟨hhi, hlo, rfl⟩, ⟨hhi, hlo, rfl⟩,
    ⟨hhi, s.setR16_af_toF_toNat v, rfl⟩, s.getR16_setR16_self .bc v (by decide),
    s.getR16_setR16_self .de v (by decide), s.getR16_setR16_self .hl v (by decide)⟩

/-- Settles O5: each flag is `commitFlag` of its own mask bit, which is the statement's `if`, and
`setFlags` is an update of the one field `flags`. -/
theorem setFlagsCommitsUnderMask : Obligations.SetFlagsCommitsUnderMask := by
  unfold Obligations.SetFlagsCommitsUnderMask
  intro s new mask
  exact ⟨commitFlag_eq_ite mask.z new.z s.flags.z, commitFlag_eq_ite mask.n new.n s.flags.n,
    commitFlag_eq_ite mask.h new.h s.flags.h, commitFlag_eq_ite mask.c new.c s.flags.c, rfl⟩

end Sys2Proof.Machine
end

section
/-! Instruction encoding (spec/30_encoding.md): the fields of an opcode by their positions, and what
the two fetches answer and leave. -/

namespace Sys2Proof

/-! ## Fields of an opcode (R70) -/

theorem fieldX_toNat (o : Byte) : (fieldX o).toNat = o.toNat / 64 := by
  simp only [fieldX, BitVec.extractLsb'_toNat, Nat.shiftRight_eq_div_pow]
  have := o.isLt
  omega

theorem fieldY_toNat (o : Byte) : (fieldY o).toNat = o.toNat / 8 % 8 := by
  simp only [fieldY, BitVec.extractLsb'_toNat, Nat.shiftRight_eq_div_pow, Nat.reducePow]

theorem fieldZ_toNat (o : Byte) : (fieldZ o).toNat = o.toNat % 8 := by
  simp only [fieldZ, BitVec.extractLsb'_toNat, Nat.shiftRight_zero, Nat.reducePow]

/-- `p = y >> 1`: bits 5:4 of the opcode are the upper two of y. -/
theorem fieldP_toNat (o : Byte) : (fieldP o).toNat = (fieldY o).toNat / 2 := by
  simp only [fieldY_toNat, fieldP, BitVec.extractLsb'_toNat, Nat.shiftRight_eq_div_pow]
  omega

/-- `q = y & 1`: bit 3 of the opcode is the lowest of y. -/
theorem fieldQ_toNat (o : Byte) : (fieldQ o).toNat = (fieldY o).toNat % 2 := by
  simp only [fieldY_toNat, fieldQ, BitVec.extractLsb'_toNat, Nat.shiftRight_eq_div_pow]
  omega

/-- x, y and z together hold every bit of the opcode. -/
theorem toNat_eq_fields (o : Byte) :
    o.toNat = (fieldX o).toNat * 64 + (fieldY o).toNat * 8 + (fieldZ o).toNat := by
  rw [fieldX_toNat, fieldY_toNat, fieldZ_toNat]
  omega

namespace Machine

/-! ## Fetches (R78, R79) -/

/-- A fetch leaves what its read leaves, but for PC. -/
theorem State.fetch8_snd (s : State) :
    s.fetch8.2 = { (s.memRead s.pc).2 with pc := s.fetch8.2.pc } := rfl

theorem State.fetch16_fst_toNat (s : State) :
    s.fetch16.1.toNat = s.fetch8.2.fetch8.1.toNat * 256 + s.fetch8.1.toNat :=
  wordOf_toNat s.fetch8.2.fetch8.1 s.fetch8.1

/-- A 16-bit fetch moves the state as two fetches do. -/
theorem State.fetch16_snd (s : State) : s.fetch16.2 = s.fetched 2 := rfl

theorem State.fetched_pc_toNat (n : Nat) (s : State) :
    (s.fetched n).pc.toNat = (s.pc.toNat + n) % 65536 := by
  rw [State.fetched_pc, BitVec.toNat_add, BitVec.toNat_ofNat, Nat.add_mod_mod]

theorem State.fetch16_bus (s : State) :
    s.fetch16.2.bus =
      s.bus ++ [.read s.pc s.fetch8.1, .read s.fetch8.2.pc s.fetch8.2.fetch8.1] :=
  calc s.fetch8.2.fetch8.2.bus
    _ = s.fetch8.2.bus ++ [.read s.fetch8.2.pc s.fetch8.2.fetch8.1] := State.fetch8_bus s.fetch8.2
    _ = _ := by rw [State.fetch8_bus, List.append_assoc, List.singleton_append]

/-! ## The statements -/

/-- Settles O16: a fetch is one read at PC, and a 16-bit fetch is `State.fetched 2`, whose PC and
history are those of two fetches in a row. -/
theorem fetchReadsAtPcAndAdvances : Obligations.FetchReadsAtPcAndAdvances := by
  unfold Obligations.FetchReadsAtPcAndAdvances
  intro s
  exact ⟨rfl, s.fetch8_snd, s.fetched_pc_toNat 1, s.fetch16_fst_toNat, s.fetch16_snd,
    s.fetched_pc_toNat 2, s.fetch16_bus⟩

/-- Settles O17 by the position of each field. -/
theorem opcodeFieldsByPosition : Obligations.OpcodeFieldsByPosition := by
  unfold Obligations.OpcodeFieldsByPosition
  intro o
  exact ⟨fieldX_toNat o, fieldY_toNat o, fieldZ_toNat o, fieldP_toNat o, fieldQ_toNat o,
    toNat_eq_fields o⟩

end Machine

end Sys2Proof
end

section
/-! ALU (spec/40_alu.md): each flag of an addition and of a logic function, and the logic results
and the rotates bit by bit. -/

namespace Sys2Proof.Machine

/-! ## Zero follows the result, in the functions that are not rotates (sections 2 and 3) -/

theorem addC_flags_z_iff (a b : Byte) (cin : Bool) :
    (addC a b cin).flags.z = true ↔ (addC a b cin).result = 0 := decide_eq_true_iff

theorem aluAnd_flags_z_iff (a b : Byte) :
    (aluAnd a b).flags.z = true ↔ (aluAnd a b).result = 0 := decide_eq_true_iff

theorem aluXor_flags_z_iff (a b : Byte) :
    (aluXor a b).flags.z = true ↔ (aluXor a b).result = 0 := decide_eq_true_iff

theorem aluOr_flags_z_iff (a b : Byte) :
    (aluOr a b).flags.z = true ↔ (aluOr a b).result = 0 := decide_eq_true_iff

/-! ## The carries of an addition (section 2) -/

theorem addC_flags_c_iff (a b : Byte) (cin : Bool) :
    (addC a b cin).flags.c = true ↔ a.toNat + b.toNat + cin.toNat > 255 := decide_eq_true_iff

theorem addC_flags_h_iff (a b : Byte) (cin : Bool) :
    (addC a b cin).flags.h = true ↔ a.toNat % 16 + b.toNat % 16 + cin.toNat > 0xF :=
  decide_eq_true_iff

/-! ## The rotates, bit by bit (section 4) -/

/-- The 8-bit left rotate is the library's. -/
theorem rlc_result (a : Byte) : (rlc a).result = a.rotateLeft 1 := rfl

/-- The 8-bit right rotate is the library's. -/
theorem rrc_result (a : Byte) : (rrc a).result = a.rotateRight 1 := rfl

theorem rlc_result_getLsbD (a : Byte) (i : Nat) (hi : i < 8) :
    (rlc a).result.getLsbD i = a.getLsbD ((i + 7) % 8) := by
  rw [rlc_result, BitVec.getLsbD_rotateLeft]
  by_cases h0 : i = 0
  · simp [h0]
  · have hwrap : (i + 7) % 8 = i - 1 := by omega
    simp [h0, hi, hwrap]

theorem rrc_result_getLsbD (a : Byte) (i : Nat) (hi : i < 8) :
    (rrc a).result.getLsbD i = a.getLsbD ((i + 1) % 8) := by
  rw [rrc_result, BitVec.getLsbD_rotateRight]
  by_cases h7 : i = 7
  · simp [h7]
  · have hlt : i < 7 := by omega
    have hwrap : (i + 1) % 8 = 1 + i := by omega
    simp [hlt, hwrap]

theorem carryByte_getLsbD (cin : Bool) (i : Nat) :
    (carryByte cin).getLsbD i = (decide (i = 0) && cin) := by
  cases cin
  · simp [carryByte]
  · simp [carryByte, BitVec.getLsbD_one]

/-- The shift vacates bit 0, where alone the carry-in has a bit. -/
theorem rl_result_getLsbD (a : Byte) (cin : Bool) (i : Nat) (hi : i < 8) :
    (rl a cin).result.getLsbD i = if i = 0 then cin else a.getLsbD (i - 1) := by
  rw [rl, rotated_result, BitVec.getLsbD_or, BitVec.getLsbD_shiftLeft, carryByte_getLsbD]
  by_cases h0 : i = 0
  · simp [h0]
  · simp [h0, hi]

/-- The shift vacates bit 7, where alone the carry-in has a bit. -/
theorem rr_result_getLsbD (a : Byte) (cin : Bool) (i : Nat) (hi : i < 8) :
    (rr a cin).result.getLsbD i = if i = 7 then cin else a.getLsbD (i + 1) := by
  rw [rr, rotated_result, BitVec.getLsbD_or, BitVec.getLsbD_ushiftRight, BitVec.getLsbD_shiftLeft,
    carryByte_getLsbD]
  by_cases h7 : i = 7
  · simp [h7]
  · have hlt : i < 7 := by omega
    simp [h7, hlt, Nat.add_comm]

/-! ## The statements -/

/-- Settles O6 by the law of the sum and one law for each flag. -/
theorem addWithCarryResultAndFlags : Obligations.AddWithCarryResultAndFlags := by
  unfold Obligations.AddWithCarryResultAndFlags
  intro a b cin
  exact ⟨addC_result_toNat a b cin, addC_flags_c_iff a b cin, addC_flags_h_iff a b cin,
    addC_flags_z_iff a b cin, rfl⟩

/-- Settles O8: the results are the library's bitwise operations, Zero follows each result, and the
other three flags are constants of the function. -/
theorem logicResultsAndForcedFlags : Obligations.LogicResultsAndForcedFlags := by
  unfold Obligations.LogicResultsAndForcedFlags
  intro a b
  exact ⟨fun _ => BitVec.getLsbD_and, fun _ => BitVec.getLsbD_xor, fun _ => BitVec.getLsbD_or,
    aluAnd_flags_z_iff a b, aluXor_flags_z_iff a b, aluOr_flags_z_iff a b,
    ⟨rfl, rfl, rfl⟩, ⟨rfl, rfl, rfl⟩, ⟨rfl, rfl, rfl⟩⟩

/-- Settles O9: each bit by the law of its rotate, the flags by what the four share. -/
theorem rotatesMoveEveryBit : Obligations.RotatesMoveEveryBit := by
  unfold Obligations.RotatesMoveEveryBit
  intro a cin
  exact ⟨rlc_result_getLsbD a, rrc_result_getLsbD a, rl_result_getLsbD a cin,
    rr_result_getLsbD a cin, rotated_flags _ _, rotated_flags _ _, rotated_flags _ _,
    rotated_flags _ _⟩

end Sys2Proof.Machine
end

section
/-! Block 0, 16-bit (spec/42_block0_16bit.md): writes of a 16-bit operand, the sum of two words by
two byte additions, and the statements about LD r16,imm16, INC r16, DEC r16 and ADD HL,r16. -/

namespace Sys2Proof

theorem opcodePQZ_eq_ofNat (p : BitVec 2) (q : BitVec 1) (z : BitVec 3) :
    opcodePQZ p q z = BitVec.ofNat 8 (z.toNat + 8 * q.toNat + 16 * p.toNat) := by
  revert p q z; decide

namespace Machine

/-! ## What a completed step takes and keeps, from its effect on the port -/

theorem PortEffect.took {n : Nat} {addrs : List Word} {ws : List (Word × Byte)} {s t : State}
    (e : PortEffect n addrs ws s t) : Took n (s.dataReads n addrs ++ dataWrites ws) s t := by
  refine ⟨e.pc, e.bus.trans (List.append_assoc _ _ _), ?_⟩
  have hreads : (s.dataReads n addrs ++ dataWrites ws).filter Transaction.isRead =
      s.dataReads n addrs := by
    simp [State.dataReads, dataWrites, List.filter_map, Function.comp_def, Transaction.isRead]
  rw [e.answers, hreads, State.dataReads, List.length_map]

theorem PortEffect.sameMem {n : Nat} {addrs : List Word} {s t : State}
    (e : PortEffect n addrs [] s t) : SameMem s t := fun x =>
  congrArg (Memory.read · x) e.mem

/-! ## Writes of a 16-bit operand (R74) -/

theorem R16.reg16_ne_sp (w : R16) (h : w ≠ .sp) : w.reg16 ≠ .sp := by
  cases w with
  | bc | de | hl => decide
  | sp => exact absurd rfl h

theorem State.setR8_setR8_sameRegsBut (s : State) (p q : R8) (u v : Byte) :
    SameRegsBut [p, q] s ((s.setR8 q v).setR8 p u) := by
  intro r hr
  obtain ⟨hp, hq⟩ : r ≠ p ∧ r ≠ q := by simpa using hr
  rw [State.getR8_setR8_of_ne _ _ _ _ hp, State.getR8_setR8_of_ne _ _ _ _ hq]

theorem State.setR16_sameRegsBut (s : State) (w : R16) (v : Word) :
    SameRegsBut w.cells s (s.setR16 w.reg16 v) := by
  cases w with
  | bc => exact s.setR8_setR8_sameRegsBut .b .c (hiByte v) (loByte v)
  | de => exact s.setR8_setR8_sameRegsBut .d .e (hiByte v) (loByte v)
  | hl => exact s.setR8_setR8_sameRegsBut .h .l (hiByte v) (loByte v)
  | sp => intro r _; cases r <;> rfl

/-- What an instruction that writes a 16-bit operand after its fetches changes, PC, port and memory
aside. -/
theorem State.setR16_fetched_effect (s : State) (n : Nat) (w : R16) (v : Word) :
    ((s.fetched n).setR16 w.reg16 v).getR16 w.reg16 = v ∧
    SameRegsBut w.cells s ((s.fetched n).setR16 w.reg16 v) ∧
    (w ≠ .sp → ((s.fetched n).setR16 w.reg16 v).sp = s.sp) ∧
    ((s.fetched n).setR16 w.reg16 v).flags = s.flags := by
  have hne := R16.reg16_ne_af w
  refine ⟨State.getR16_setR16_self _ _ v hne, fun r hr => ?_, fun hsp => ?_, ?_⟩
  · rw [(s.fetched n).setR16_sameRegsBut w v r hr, State.fetched_getR8]
  · rw [State.setR16_sp _ _ _ (R16.reg16_ne_sp w hsp), State.fetched_sp]
  · rw [State.setR16_flags _ _ _ hne, State.fetched_flags]

/-! ## The neighbours of a word (R135, R136) -/

theorem word_add_one_toNat (v : Word) : (v + 1).toNat = (v.toNat + 1) % 65536 :=
  BitVec.toNat_add v 1

theorem word_sub_one_toNat (v : Word) : (v - 1).toNat = (v.toNat + 65535) % 65536 :=
  (BitVec.toNat_sub v 1).trans (by rw [Nat.add_comm]; rfl)

/-! ## The sum of two words by two byte additions (R111) -/

/-- The carry an addition hands on, as a number. -/
theorem addC_flags_c_toNat (a b : Byte) (cin : Bool) :
    (addC a b cin).flags.c.toNat = (a.toNat + b.toNat + cin.toNat) / 256 := by
  have ha := a.isLt
  have hb := b.isLt
  have hcin := cin.toNat_le
  have hcarry := addC_flags_c_iff a b cin
  cases hc : (addC a b cin).flags.c with
  | true =>
    have hover := hcarry.mp hc
    rw [Bool.toNat_true]; omega
  | false =>
    have hfits := hcarry.not.mp (Bool.eq_false_iff.mp hc)
    rw [Bool.toNat_false]; omega

theorem add16_toNat (v w : Word) :
    (wordOf (add16 (hiByte v) (loByte v) (hiByte w) (loByte w)).high
      (add16 (hiByte v) (loByte v) (hiByte w) (loByte w)).low).toNat =
      (v.toNat + w.toNat) % 65536 := by
  simp only [add16, wordOf_toNat, addC_result_toNat, addC_flags_c_toNat, hiByte_toNat,
    loByte_toNat, Bool.toNat_false]
  omega

/-- The low bytes hand their carry to the high ones, whose half carry is out of bit 11. -/
theorem add16_flags_h_iff (v w : Word) :
    (add16 (hiByte v) (loByte v) (hiByte w) (loByte w)).flags.h = true ↔
      v.toNat % 4096 + w.toNat % 4096 > 0x0FFF := by
  simp only [add16, addC_flags_h_iff, addC_flags_c_toNat, hiByte_toNat, loByte_toNat,
    Bool.toNat_false]
  omega

/-- The low bytes hand their carry to the high ones, whose carry is out of bit 15. -/
theorem add16_flags_c_iff (v w : Word) :
    (add16 (hiByte v) (loByte v) (hiByte w) (loByte w)).flags.c = true ↔
      v.toNat + w.toNat > 0xFFFF := by
  simp only [add16, addC_flags_c_iff, addC_flags_c_toNat, hiByte_toNat, loByte_toNat,
    Bool.toNat_false]
  omega

/-! ## ADD HL,r16 (R137) -/

/-- The state ADD HL,r16 leaves when `r` is the sum: its one fetch, the two halves of HL, and every
flag but Zero. -/
def State.withHlSum (s : State) (r : Add16Result) : State :=
  (((s.fetched 1).setR8 .l r.low).setR8 .h r.high).setFlags r.flags Flags.butZero

theorem exec_addHLR16 (w : R16) (s : State) :
    exec (.addHLR16 w) s = .next (s.withHlSum (add16 (hiByte s.hl) (loByte s.hl)
      (hiByte (s.getR16 w.reg16)) (loByte (s.getR16 w.reg16)))) := by
  have hh : hiByte s.hl = s.h := hiByte_wordOf s.h s.l
  have hl : loByte s.hl = s.l := loByte_wordOf s.h s.l
  rw [hh, hl, ← s.fetched_getR16 1 w]
  rfl

theorem State.withHlSum_sameRegsBut (s : State) (r : Add16Result) :
    SameRegsBut [.h, .l] s (s.withHlSum r) := by
  intro q hq
  rw [State.withHlSum, State.setFlags_getR8,
    (s.fetched 1).setR8_setR8_sameRegsBut .h .l r.high r.low q hq, State.fetched_getR8]

/-! ## The statements -/

/-- Settles O24: the step writes the operand after three fetches, and makes no data access. -/
theorem loadPairImmediate : Obligations.LoadPairImmediate := by
  unfold Obligations.LoadPairImmediate
  intro dst nn s
  have hport := exec_portEffect (.ldR16Imm16 dst nn) s _ rfl
  obtain ⟨hval, hregs, hsp, hflags⟩ := s.setR16_fetched_effect 3 dst nn
  exact ⟨_, rfl, congrArg (· :: _) (opcodePQZ_eq_ofNat dst.index 0 1), hport.took, hval, hregs,
    hsp, hflags, hport.sameMem⟩

/-- Settles O28: both write a neighbour of the operand's old value after one fetch, and word
arithmetic wraps. -/
theorem stepPairWithoutFlags : Obligations.StepPairWithoutFlags := by
  unfold Obligations.StepPairWithoutFlags
  intro dst s
  have heffect := s.setR16_fetched_effect 1 dst
  constructor
  · have hport := exec_portEffect (.incR16 dst) s _ rfl
    obtain ⟨hval, hregs, hsp, hflags⟩ := heffect ((s.fetched 1).getR16 dst.reg16 + 1)
    refine ⟨_, rfl, congrArg ([·]) (opcodePQZ_eq_ofNat dst.index 0 3), hport.took, ?_, hregs, hsp,
      hflags, hport.sameMem⟩
    rw [hval, s.fetched_getR16, word_add_one_toNat]
  · have hport := exec_portEffect (.decR16 dst) s _ rfl
    obtain ⟨hval, hregs, hsp, hflags⟩ := heffect ((s.fetched 1).getR16 dst.reg16 - 1)
    refine ⟨_, rfl, congrArg ([·]) (opcodePQZ_eq_ofNat dst.index 1 3), hport.took, ?_, hregs, hsp,
      hflags, hport.sameMem⟩
    rw [hval, s.fetched_getR16, word_sub_one_toNat]

/-- Settles O29: the halves and the flags are those of the sum of two words, with the old Zero. -/
theorem addPairToHl : Obligations.AddPairToHl := by
  unfold Obligations.AddPairToHl
  intro w s
  have hexec := exec_addHLR16 w s
  have hport := exec_portEffect (.addHLR16 w) s _ hexec
  exact ⟨_, hexec, congrArg ([·]) (opcodePQZ_eq_ofNat w.index 1 1), hport.took,
    add16_toNat s.hl (s.getR16 w.reg16), rfl, rfl, add16_flags_h_iff s.hl (s.getR16 w.reg16),
    add16_flags_c_iff s.hl (s.getR16 w.reg16), s.withHlSum_sameRegsBut _, rfl,
    hport.sameMem⟩

end Machine

end Sys2Proof
end

section
/-! Block 0, 8-bit (spec/43_block0_8bit.md): writes of an 8-bit operand and of memory, the
rotates as arithmetic, and the statements about INC and DEC of a byte, the immediate loads and the
rotates of A. -/

namespace Sys2Proof

theorem opcodeXYZ_zero_eq_ofNat (y z : BitVec 3) :
    opcodeXYZ 0 y z = BitVec.ofNat 8 (z.toNat + 8 * y.toNat) := by
  revert y z; decide

/-- The cell an 8-bit operand names, if it is one (R73). -/
def Operand8.cells : Operand8 → List R8
  | .reg r => [r]
  | .indirectHL => []

namespace Machine

/-! ## Writes of an 8-bit operand (R87) -/

@[simp] theorem State.writeOperand8_flags (s : State) (o : Operand8) (v : Byte) :
    (s.writeOperand8 o v).flags = s.flags := by
  cases o with
  | reg r => exact s.setR8_flags r v
  | indirectHL => rfl

@[simp] theorem State.writeOperand8_sp (s : State) (o : Operand8) (v : Byte) :
    (s.writeOperand8 o v).sp = s.sp := by
  cases o with
  | reg r => exact s.setR8_sp r v
  | indirectHL => rfl

theorem State.writeOperand8_sameRegsBut (s : State) (o : Operand8) (v : Byte) :
    SameRegsBut o.cells s (s.writeOperand8 o v) := by
  cases o with
  | reg r => exact s.setR8_sameRegsBut r v
  | indirectHL => exact fun q _ => s.memWrite_getR8 s.hl v q

/-- What an instruction that writes an 8-bit operand after its fetches changes, PC, port and memory
aside. -/
theorem State.writeOperand8_fetched_effect (s : State) (n : Nat) (o : Operand8) (v : Byte) :
    SameRegsBut o.cells s ((s.fetched n).writeOperand8 o v) ∧
    ((s.fetched n).writeOperand8 o v).flags = s.flags ∧
    ((s.fetched n).writeOperand8 o v).sp = s.sp := by
  refine ⟨fun q hq => ?_, ?_, ?_⟩
  · rw [(s.fetched n).writeOperand8_sameRegsBut o v q hq, State.fetched_getR8]
  · rw [State.writeOperand8_flags, State.fetched_flags]
  · rw [State.writeOperand8_sp, State.fetched_sp]

/-! ## What a completed step's writes leave of memory -/

theorem Memory.read_writeAll_of_notMem (m : Memory) (ws : List (Word × Byte)) (x : Nat)
    (hx : x ∉ (ws.map Prod.fst).map BitVec.toNat) : (m.writeAll ws).read x = m.read x := by
  induction ws generalizing m with
  | nil => rfl
  | cons w ws ih =>
    calc ((m.write w.1.toNat w.2).writeAll ws).read x
      _ = (m.write w.1.toNat w.2).read x := ih _ (List.not_mem_of_not_mem_cons hx)
      _ = m.read x :=
        m.read_write_of_ne w.1.toNat x w.2 (List.ne_of_not_mem_cons hx)

theorem PortEffect.sameMemBut {n : Nat} {addrs : List Word} {ws : List (Word × Byte)}
    {s t : State} (e : PortEffect n addrs ws s t) : SameMemBut (ws.map Prod.fst) s t := by
  intro x hx
  rw [e.mem, Memory.read_writeAll_of_notMem s.mem ws x hx]

theorem PortEffect.read_written {n : Nat} {addrs : List Word} {addr : Word} {v : Byte}
    {s t : State} (e : PortEffect n addrs [(addr, v)] s t) (hs : s.mem.wf = true) :
    t.mem.read addr.toNat = v := by
  rw [e.mem]
  exact Memory.read_write_self s.mem 0 addr.toNat v hs

/-! ## INC and DEC of a byte (R150 to R153) -/

/-- The state INC and DEC leave, `f` being the ALU function: the fetch and the operand's own read,
its new value, and every flag but Carry. -/
def State.withStepped (s : State) (f : Byte → AluResult) (o : Operand8) : State :=
  ((s.after 1 (s.operandReads o)).writeOperand8 o (f (s.operandValue o)).result).setFlags
    (f (s.operandValue o)).flags Flags.butCarry

/-- What INC and DEC change, PC, port and memory aside. -/
theorem State.withStepped_effect (s : State) (f : Byte → AluResult) (o : Operand8) :
    SameRegsBut o.cells s (s.withStepped f o) ∧
    (s.withStepped f o).flags = s.flags.commit (f (s.operandValue o)).flags Flags.butCarry ∧
    (s.withStepped f o).sp = s.sp := by
  refine ⟨fun q hq => ?_, ?_, ?_⟩
  · rw [State.withStepped, State.setFlags_getR8, State.writeOperand8_sameRegsBut _ _ _ q hq,
      State.after_getR8]
  · rw [State.withStepped, State.setFlags_flags, State.writeOperand8_flags, State.after_flags]
  · rw [State.withStepped, State.setFlags_sp, State.writeOperand8_sp, State.after_sp]

theorem State.withStepped_reg_getR8 (s : State) (f : Byte → AluResult) (r : R8) :
    (s.withStepped f (.reg r)).getR8 r = (f (s.getR8 r)).result :=
  (State.setFlags_getR8 _ _ _ r).trans (State.getR8_setR8_self _ r _)

theorem aluInc_result_toNat (v : Byte) : (aluInc v).result.toNat = (v.toNat + 1) % 256 := by
  rw [aluInc_result]
  exact BitVec.toNat_ofNat _ 8

theorem aluDec_result_toNat (v : Byte) : (aluDec v).result.toNat = (v.toNat + 255) % 256 := by
  rw [aluDec_result]
  exact BitVec.toNat_ofNat _ 8

theorem commit_aluInc_flags (v : Byte) (old : Flags) :
    old.commit (aluInc v).flags Flags.butCarry =
      { z := decide (v = 0xFF), n := false, h := decide (v.toNat % 16 = 0xF), c := old.c } := by
  obtain ⟨hz, hn, hh⟩ := aluInc_flags v
  rw [Flags.commit_butCarry, hz, hn, hh]

theorem commit_aluDec_flags (v : Byte) (old : Flags) :
    old.commit (aluDec v).flags Flags.butCarry =
      { z := decide (v = 0x01), n := true, h := decide (v.toNat % 16 = 0), c := old.c } := by
  obtain ⟨hz, hn, hh⟩ := aluDec_flags v
  rw [Flags.commit_butCarry, hz, hn, hh]

/-! ## The rotates as arithmetic (R105 to R108) -/

/-- A byte shifted left, with what fills the bits the shift vacates. -/
theorem toNat_shiftLeft_or (a low : Byte) (i : Nat) (hi : i ≤ 8) (hlow : low.toNat < 2 ^ i) :
    ((a <<< i) ||| low).toNat = a.toNat * 2 ^ i % 256 + low.toNat := by
  have hshift : a.toNat * 2 ^ i % 256 = 2 ^ i * (a.toNat % 2 ^ (8 - i)) := by
    rw [← Nat.mul_mod_mul_left, ← Nat.pow_add, Nat.add_sub_cancel' hi, Nat.mul_comm]
  calc ((a <<< i) ||| low).toNat
    _ = a.toNat * 2 ^ i % 256 ||| low.toNat := by
      rw [BitVec.toNat_or, BitVec.toNat_shiftLeft, Nat.shiftLeft_eq]
    _ = a.toNat * 2 ^ i % 256 + low.toNat := by
      rw [hshift, Nat.two_pow_add_eq_or_of_lt hlow]

theorem carryByte_toNat (cin : Bool) : (carryByte cin).toNat = cin.toNat := by
  cases cin <;> rfl

theorem toNat_ushiftRight_eq_div (a : Byte) (i : Nat) : (a >>> i).toNat = a.toNat / 2 ^ i := by
  rw [BitVec.toNat_ushiftRight, Nat.shiftRight_eq_div_pow]

theorem rlc_result_toNat (a : Byte) :
    (rlc a).result.toNat = a.toNat * 2 % 256 + a.toNat / 128 := by
  have hhigh := toNat_ushiftRight_eq_div a 7
  have ha := a.isLt
  rw [rlc, rotated_result, toNat_shiftLeft_or a (a >>> 7) 1 (by omega) (by omega), hhigh]
  omega

theorem rrc_result_toNat (a : Byte) :
    (rrc a).result.toNat = a.toNat / 2 + a.toNat % 2 * 128 := by
  have hlow := toNat_ushiftRight_eq_div a 1
  have ha := a.isLt
  rw [rrc, rotated_result, BitVec.or_comm,
    toNat_shiftLeft_or a (a >>> 1) 7 (by omega) (by omega), hlow]
  omega

theorem rl_result_toNat (a : Byte) (cin : Bool) :
    (rl a cin).result.toNat = a.toNat * 2 % 256 + cin.toNat := by
  have hcarry := carryByte_toNat cin
  have hcin := cin.toNat_le
  rw [rl, rotated_result, toNat_shiftLeft_or a (carryByte cin) 1 (by omega) (by omega), hcarry,
    Nat.pow_one]

theorem rr_result_toNat (a : Byte) (cin : Bool) :
    (rr a cin).result.toNat = a.toNat / 2 + cin.toNat * 128 := by
  have hlow := toNat_ushiftRight_eq_div a 1
  have ha := a.isLt
  have hcin := cin.toNat_le
  rw [rr, rotated_result, BitVec.or_comm,
    toNat_shiftLeft_or (carryByte cin) (a >>> 1) 7 (by omega) (by omega), hlow, carryByte_toNat]
  omega

/-- A rotate changes no cell but A: A and the flags are all it commits. -/
theorem commitRotate_sameRegsBut (r : AluResult) (s : State) :
    SameRegsBut [.a] s (((s.fetched 1).setR8 .a r.result).setFlags r.flags Flags.all) := by
  intro q hq
  rw [State.setFlags_getR8, (s.fetched 1).setR8_sameRegsBut .a r.result q hq, State.fetched_getR8]

/-! ## The statements -/

/-- Settles O30: both leave `withStepped` of the cell, with the values and flags of the increment
and of the decrement. -/
theorem stepByteRegister : Obligations.StepByteRegister := by
  unfold Obligations.StepByteRegister
  intro r s
  constructor
  · have hexec : exec (.incR8 r) s = .next (s.withStepped aluInc (.reg r)) := stepOperand8_eq _ _ s
    have hport := exec_portEffect (.incR8 r) s _ hexec
    obtain ⟨hregs, hflags, hsp⟩ := s.withStepped_effect aluInc (.reg r)
    refine ⟨_, hexec, congrArg ([·]) (opcodeXYZ_zero_eq_ofNat r.index 4), hport.took, ?_,
      hflags.trans (commit_aluInc_flags _ _), hregs, hsp, hport.sameMem⟩
    rw [State.withStepped_reg_getR8, aluInc_result_toNat]
  · have hexec : exec (.decR8 r) s = .next (s.withStepped aluDec (.reg r)) := stepOperand8_eq _ _ s
    have hport := exec_portEffect (.decR8 r) s _ hexec
    obtain ⟨hregs, hflags, hsp⟩ := s.withStepped_effect aluDec (.reg r)
    refine ⟨_, hexec, congrArg ([·]) (opcodeXYZ_zero_eq_ofNat r.index 5), hport.took, ?_,
      hflags.trans (commit_aluDec_flags _ _), hregs, hsp, hport.sameMem⟩
    rw [State.withStepped_reg_getR8, aluDec_result_toNat]

/-- Settles O31: both leave `withStepped` of the byte at HL, which the port has read and written. -/
theorem stepByteInMemory : Obligations.StepByteInMemory := by
  unfold Obligations.StepByteInMemory
  intro s v
  constructor
  · have hexec : exec .incHL s = .next (s.withStepped aluInc .indirectHL) := stepOperand8_eq _ _ s
    have hport : PortEffect 1 [s.hl] [(s.hl, (aluInc v).result)] s _ :=
      exec_portEffect .incHL s _ hexec
    obtain ⟨hregs, hflags, hsp⟩ := s.withStepped_effect aluInc .indirectHL
    refine ⟨_, hexec, rfl, ?_, fun hwf => ?_, hport.sameMemBut,
      hflags.trans (commit_aluInc_flags _ _), hregs, hsp⟩
    · rw [← aluInc_result]
      exact hport.took
    · rw [hport.read_written hwf, aluInc_result_toNat]
  · have hexec : exec .decHL s = .next (s.withStepped aluDec .indirectHL) := stepOperand8_eq _ _ s
    have hport : PortEffect 1 [s.hl] [(s.hl, (aluDec v).result)] s _ :=
      exec_portEffect .decHL s _ hexec
    obtain ⟨hregs, hflags, hsp⟩ := s.withStepped_effect aluDec .indirectHL
    refine ⟨_, hexec, rfl, ?_, fun hwf => ?_, hport.sameMemBut,
      hflags.trans (commit_aluDec_flags _ _), hregs, hsp⟩
    · rw [← aluDec_result]
      exact hport.took
    · rw [hport.read_written hwf, aluDec_result_toNat]

/-- Settles O32: the step writes the cell after two fetches, and makes no data access. -/
theorem loadByteImmediate : Obligations.LoadByteImmediate := by
  unfold Obligations.LoadByteImmediate
  intro dst n s
  have hport := exec_portEffect (.ldR8Imm8 dst n) s _ rfl
  obtain ⟨hregs, hflags, hsp⟩ := s.writeOperand8_fetched_effect 2 (.reg dst) n
  exact ⟨_, rfl, congrArg (· :: _) (opcodeXYZ_zero_eq_ofNat dst.index 6), hport.took,
    State.getR8_setR8_self _ dst n, hregs, hflags, hsp, hport.sameMem⟩

/-- Settles O33: the step makes one data access after two fetches, the write at HL. -/
theorem storeByteImmediate : Obligations.StoreByteImmediate := by
  unfold Obligations.StoreByteImmediate
  intro n s
  have hport : PortEffect 2 [] [(s.hl, n)] s _ := exec_portEffect (.ldHLImm8 n) s _ rfl
  obtain ⟨hregs, hflags, hsp⟩ := s.writeOperand8_fetched_effect 2 .indirectHL n
  exact ⟨_, rfl, rfl, hport.took, hport.read_written, hport.sameMemBut, hregs, hflags, hsp⟩

/-- Settles O34: both commit the record of their circular rotate of A, whole. -/
theorem rotateACircular : Obligations.RotateACircular := by
  unfold Obligations.RotateACircular
  intro s
  constructor
  · have hport := exec_portEffect .rlca s _ rfl
    exact ⟨_, rfl, rfl, hport.took, rlc_result_toNat s.a, rfl, commitRotate_sameRegsBut _ s,
      s.fetched_sp 1, hport.sameMem⟩
  · have hport := exec_portEffect .rrca s _ rfl
    exact ⟨_, rfl, rfl, hport.took, rrc_result_toNat s.a, rfl, commitRotate_sameRegsBut _ s,
      s.fetched_sp 1, hport.sameMem⟩

/-- Settles O35: both commit the record of their rotate of A with the old Carry, whole. -/
theorem rotateAThroughCarry : Obligations.RotateAThroughCarry := by
  unfold Obligations.RotateAThroughCarry
  intro s
  constructor
  · have hport := exec_portEffect .rla s _ rfl
    exact ⟨_, rfl, rfl, hport.took, rl_result_toNat s.a s.flags.c, rfl,
      commitRotate_sameRegsBut _ s, s.fetched_sp 1, hport.sameMem⟩
  · have hport := exec_portEffect .rra s _ rfl
    exact ⟨_, rfl, rfl, hport.took, rr_result_toNat s.a s.flags.c, rfl,
      commitRotate_sameRegsBut _ s, s.fetched_sp 1, hport.sameMem⟩

end Machine

end Sys2Proof
end

section
/-! Block 1 (spec/44_block1_moves.md): what a move leaves beside PC, port and memory, and the
statements about the moves and about the opcodes that raise the error condition. -/

namespace Sys2Proof

theorem opcodeXYZ_eq_ofNat (x : BitVec 2) (y z : BitVec 3) :
    opcodeXYZ x y z = BitVec.ofNat 8 (0x40 * x.toNat + 0x08 * y.toNat + z.toNat) := by
  revert x y z; decide

namespace Machine

/-- What an instruction that writes an 8-bit operand after its fetches and data reads changes, PC,
port and memory aside. -/
theorem State.writeOperand8_after_effect (s : State) (n : Nat) (reads : List Transaction)
    (o : Operand8) (v : Byte) :
    SameRegsBut o.cells s ((s.after n reads).writeOperand8 o v) ∧
    ((s.after n reads).writeOperand8 o v).flags = s.flags ∧
    ((s.after n reads).writeOperand8 o v).sp = s.sp := by
  refine ⟨fun q hq => ?_, ?_, ?_⟩
  · rw [(s.after n reads).writeOperand8_sameRegsBut o v q hq, State.after_getR8]
  · rw [State.writeOperand8_flags, State.after_flags]
  · rw [State.writeOperand8_sp, State.after_sp]

/-! ## The statements -/

/-- Settles O36: the value read from the source cell is written to the destination after one fetch,
and the step makes no data access. -/
theorem moveRegisterToRegister : Obligations.MoveRegisterToRegister := by
  unfold Obligations.MoveRegisterToRegister
  intro dst src s
  have hexec := moveOperand8_eq (.reg dst) (.reg src) s
  have hport := exec_portEffect (.ldR8R8 dst src) s _ hexec
  obtain ⟨hregs, hflags, hsp⟩ := s.writeOperand8_after_effect 1 [] (.reg dst) (s.getR8 src)
  exact ⟨_, hexec, congrArg ([·]) (opcodeXYZ_eq_ofNat 1 dst.index src.index), hport.took,
    State.getR8_setR8_self _ dst _, hregs, hflags, hsp, hport.sameMem⟩

/-- Settles O37: the one data access is the read at HL, made before the cell is written, so H and L
as destinations need no case of their own. -/
theorem moveMemoryToRegister : Obligations.MoveMemoryToRegister := by
  unfold Obligations.MoveMemoryToRegister
  intro dst s
  have hexec := moveOperand8_eq (.reg dst) .indirectHL s
  have hport : PortEffect 1 [s.hl] [] s _ := exec_portEffect (.ldR8HL dst) s _ hexec
  have hopcode : opcodeXYZ 1 dst.index 6 = BitVec.ofNat 8 (0x46 + 0x08 * dst.index.toNat) :=
    (opcodeXYZ_eq_ofNat 1 dst.index 6).trans
      (congrArg (BitVec.ofNat 8) (Nat.add_right_comm 0x40 _ 6))
  obtain ⟨hregs, hflags, hsp⟩ := s.writeOperand8_after_effect 1
    (s.operandReads .indirectHL) (.reg dst) (s.answer 1 s.hl)
  exact ⟨_, hexec, congrArg ([·]) hopcode, hport.took, State.getR8_setR8_self _ dst _, hregs,
    hflags, hsp, hport.sameMem⟩

/-- Settles O38: the one data access is the write of the cell at HL, whichever cell it is. -/
theorem moveRegisterToMemory : Obligations.MoveRegisterToMemory := by
  unfold Obligations.MoveRegisterToMemory
  intro src s
  have hexec := moveOperand8_eq .indirectHL (.reg src) s
  have hport : PortEffect 1 [] [(s.hl, s.getR8 src)] s _ :=
    exec_portEffect (.ldHLR8 src) s _ hexec
  obtain ⟨hregs, hflags, hsp⟩ := s.writeOperand8_after_effect 1 [] .indirectHL (s.getR8 src)
  exact ⟨_, hexec, congrArg ([·]) (opcodeXYZ_eq_ofNat 1 6 src.index), hport.took,
    hport.read_written, hport.sameMemBut, hregs, hflags, hsp⟩

/-- Settles O44: each of the nine meanings raises the condition with its own opcode, from the state
before the step. -/
theorem unimplementedOpcodesRaise : Obligations.UnimplementedOpcodesRaise := by
  unfold Obligations.UnimplementedOpcodesRaise
  intro s
  have hraise (o : Byte) := raiseUnimplemented_eq o s
  exact ⟨⟨hraise 0x76, rfl⟩, ⟨hraise 0x18, rfl⟩, ⟨hraise 0x27, rfl⟩, ⟨hraise 0x28, rfl⟩,
    ⟨hraise 0x2F, rfl⟩, ⟨hraise 0x37, rfl⟩, ⟨hraise 0x38, rfl⟩, ⟨hraise 0x3F, rfl⟩,
    fun o => ⟨hraise o, rfl⟩⟩

end Machine

end Sys2Proof
end

section
/-! Block 2 (spec/45_block2_alu.md): the flags of an addition and of a subtraction, what an
instruction of the block leaves beside them, and the statements about ADD, ADC, SUB, AND, XOR, OR
and CP. -/

namespace Sys2Proof.Machine

/-! ## The flags of an addition and of a subtraction (R100, R101) -/

/-- All four flags of an addition, by the sum. -/
theorem addC_flags (a b : Byte) (cin : Bool) :
    (addC a b cin).flags =
      { z := decide ((a.toNat + b.toNat + cin.toNat) % 256 = 0), n := false,
        h := decide (a.toNat % 16 + b.toNat % 16 + cin.toNat > 0xF),
        c := decide (a.toNat + b.toNat + cin.toNat > 255) } := by
  have hz : (addC a b cin).flags.z = decide ((a.toNat + b.toNat + cin.toNat) % 256 = 0) := by
    rw [Bool.eq_iff_iff, addC_flags_z_iff, decide_eq_true_iff, ← addC_result_toNat]
    exact BitVec.toNat_inj.symm
  rw [← hz]
  rfl

/-- Without a borrow the difference is 0 only between equal bytes. -/
theorem subC_result_eq_zero_iff (a b : Byte) : (subC a b false).result = 0 ↔ a = b := by
  have hresult := subC_result_toInt a b false
  have ha := a.isLt
  have hb := b.isLt
  rw [← BitVec.toNat_inj, ← BitVec.toNat_inj, BitVec.ofNat_eq_ofNat, BitVec.toNat_zero]
  rw [Bool.toNat_false] at hresult
  omega

/-- All four flags of a subtraction without a borrow, as comparisons of the two bytes. -/
theorem subC_flags_without_borrow (a b : Byte) :
    (subC a b false).flags =
      { z := decide (a = b), n := true, h := decide (a.toNat % 16 < b.toNat % 16),
        c := decide (a.toNat < b.toNat) } := by
  have hz : (subC a b false).flags.z = decide (a = b) :=
    decide_eq_decide.mpr (subC_result_eq_zero_iff a b)
  rw [← hz]
  rfl

/-! ## What an instruction of the block leaves (R180, R188) -/

/-- Fetches and then data reads alone are all that a step has taken. -/
theorem State.after_took (s : State) (n : Nat) (reads : List Transaction)
    (hreads : ∀ x ∈ reads, x.isRead = true) : Took n reads s (s.after n reads) := by
  refine ⟨rfl, rfl, ?_⟩
  rw [List.filter_eq_self.mpr hreads, State.after_answers]

/-- The state CP leaves, `r` being the ALU's record: the fetch, the operand's own read, and all four
flags. -/
def State.withCompared (s : State) (o : Operand8) (r : AluResult) : State :=
  (s.after 1 (s.operandReads o)).setFlags r.flags Flags.all

/-- The state the seven writing instructions leave, `r` being the ALU's record: the fetch, the
operand's own read, A, and all four flags. -/
def State.withAccumulated (s : State) (o : Operand8) (r : AluResult) : State :=
  ((s.after 1 (s.operandReads o)).setR8 .a r.result).setFlags r.flags Flags.all

theorem State.withCompared_took (s : State) (o : Operand8) (r : AluResult) :
    Took 1 (s.operandReads o) s (s.withCompared o r) :=
  s.after_took 1 _ (s.operandReads_isRead o)

theorem State.withAccumulated_took (s : State) (o : Operand8) (r : AluResult) :
    Took 1 (s.operandReads o) s (s.withAccumulated o r) :=
  s.after_took 1 _ (s.operandReads_isRead o)

theorem State.withCompared_frame (s : State) (o : Operand8) (r : AluResult) :
    SameRegsBut [] s (s.withCompared o r) ∧ (s.withCompared o r).sp = s.sp ∧
    SameMem s (s.withCompared o r) := by
  refine ⟨fun q _ => ?_, rfl, fun _ => rfl⟩
  rw [State.withCompared, State.setFlags_getR8, State.after_getR8]

theorem State.withAccumulated_frame (s : State) (o : Operand8) (r : AluResult) :
    SameRegsBut [.a] s (s.withAccumulated o r) ∧ (s.withAccumulated o r).sp = s.sp ∧
    SameMem s (s.withAccumulated o r) := by
  refine ⟨fun q hq => ?_, rfl, fun _ => rfl⟩
  rw [State.withAccumulated, State.setFlags_getR8, State.setR8_sameRegsBut _ .a _ q hq,
    State.after_getR8]

/-! ## The statements -/

/-- Settles O39: both accumulate a sum, and its carry-in is `false` for ADD and the old Carry for
ADC. -/
theorem addOperandToA : Obligations.AddOperandToA := by
  unfold Obligations.AddOperandToA
  intro o s v
  constructor
  · have hexec : exec (.addA o) s = .next (s.withAccumulated o (addC s.a v false)) :=
      accumulate_eq (fun a v _ => addC a v false) o s
    exact ⟨_, hexec, congrArg ([·]) (opcodeXYZ_eq_ofNat 2 0 o.index), s.withAccumulated_took o _,
      addC_result_toNat s.a v false, addC_flags s.a v false, s.withAccumulated_frame o _⟩
  · have hexec : exec (.adcA o) s = .next (s.withAccumulated o (addC s.a v s.flags.c)) :=
      accumulate_eq addC o s
    exact ⟨_, hexec, congrArg ([·]) (opcodeXYZ_eq_ofNat 2 1 o.index), s.withAccumulated_took o _,
      addC_result_toNat s.a v s.flags.c, addC_flags s.a v s.flags.c, s.withAccumulated_frame o _⟩

/-- Settles O40: the step accumulates a difference without a borrow, whatever the old Carry. -/
theorem subtractOperandFromA : Obligations.SubtractOperandFromA := by
  unfold Obligations.SubtractOperandFromA
  intro o s v
  have hexec : exec (.subA o) s = .next (s.withAccumulated o (subC s.a v false)) :=
    accumulate_eq (fun a v _ => subC a v false) o s
  have ha : ((subC s.a v false).result.toNat : Int) = ((s.a.toNat : Int) - v.toNat) % 256 := by
    rw [subC_result_toInt, Bool.toNat_false, Int.natCast_zero, Int.sub_zero]
  exact ⟨_, hexec, congrArg ([·]) (opcodeXYZ_eq_ofNat 2 2 o.index), s.withAccumulated_took o _, ha,
    subC_flags_without_borrow s.a v, s.withAccumulated_frame o _⟩

/-- Settles O42: each accumulates its logic function, whose Zero is by definition that of the result
in A and whose other three flags are constants. -/
theorem logicOperandIntoA : Obligations.LogicOperandIntoA := by
  unfold Obligations.LogicOperandIntoA
  intro o s v
  have hand : exec (.andA o) s = .next (s.withAccumulated o (aluAnd s.a v)) :=
    accumulate_eq (fun a v _ => aluAnd a v) o s
  have hxor : exec (.xorA o) s = .next (s.withAccumulated o (aluXor s.a v)) :=
    accumulate_eq (fun a v _ => aluXor a v) o s
  have hor : exec (.orA o) s = .next (s.withAccumulated o (aluOr s.a v)) :=
    accumulate_eq (fun a v _ => aluOr a v) o s
  have hopcode (y : BitVec 3) := congrArg ([·]) (opcodeXYZ_eq_ofNat 2 y o.index)
  have htook := s.withAccumulated_took o
  have hframe := s.withAccumulated_frame o
  exact ⟨⟨_, hand, hopcode 4, htook _, rfl, rfl, hframe _⟩,
    ⟨_, hxor, hopcode 5, htook _, rfl, rfl, hframe _⟩,
    ⟨_, hor, hopcode 6, htook _, rfl, rfl, hframe _⟩⟩

/-- Settles O43: the step commits the flags of SUB and no result. -/
theorem compareOperandWithA : Obligations.CompareOperandWithA := by
  unfold Obligations.CompareOperandWithA
  intro o s v
  have hexec : exec (.cpA o) s = .next (s.withCompared o (subC s.a v false)) :=
    compareWith_eq (fun a v _ => subC a v false) o s
  exact ⟨_, hexec, congrArg ([·]) (opcodeXYZ_eq_ofNat 2 7 o.index), s.withCompared_took o _,
    subC_flags_without_borrow s.a v, s.withCompared_frame o _⟩

end Sys2Proof.Machine
end

section
/-! Decoding and encoding (spec/30_encoding.md): the fields of a built opcode, the dispatch against
the encoder in both directions, and the statements about decoding. -/

namespace Sys2Proof

/-! ## The fields of a built opcode (R70) -/

@[simp] theorem fieldX_opcodeXYZ (x : BitVec 2) (y z : BitVec 3) :
    fieldX (opcodeXYZ x y z) = x := by
  revert x y z; decide

@[simp] theorem fieldY_opcodeXYZ (x : BitVec 2) (y z : BitVec 3) :
    fieldY (opcodeXYZ x y z) = y := by
  revert x y z; decide

@[simp] theorem fieldZ_opcodeXYZ (x : BitVec 2) (y z : BitVec 3) :
    fieldZ (opcodeXYZ x y z) = z := by
  revert x y z; decide

@[simp] theorem fieldX_opcodePQZ (p : BitVec 2) (q : BitVec 1) (z : BitVec 3) :
    fieldX (opcodePQZ p q z) = 0 := by
  revert p q z; decide

@[simp] theorem fieldP_opcodePQZ (p : BitVec 2) (q : BitVec 1) (z : BitVec 3) :
    fieldP (opcodePQZ p q z) = p := by
  revert p q z; decide

@[simp] theorem fieldQ_opcodePQZ (p : BitVec 2) (q : BitVec 1) (z : BitVec 3) :
    fieldQ (opcodePQZ p q z) = q := by
  revert p q z; decide

@[simp] theorem fieldZ_opcodePQZ (p : BitVec 2) (q : BitVec 1) (z : BitVec 3) :
    fieldZ (opcodePQZ p q z) = z := by
  revert p q z; decide

/-! ## From an instruction to its opcode and back -/

@[simp] theorem r8sel_r8_index (r : R8) : r8sel r.index = .reg r := r8sel_index (.reg r)

@[simp] theorem r8sel_six : r8sel 6#3 = .indirectHL := rfl

/-- What the opcode of an instruction alone decides: everything but the immediate (R77). -/
def Instr.template : Instr → Template
  | .ldR16Imm16 dst _ => .opI16 (.ldR16Imm16 dst)
  | .ldImm16SP _ => .opI16 .ldImm16SP
  | .ldR8Imm8 dst _ => .opI8 (.ldR8Imm8 dst)
  | .ldHLImm8 _ => .opI8 .ldHLImm8
  | i => .op i

theorem decodeOpcode_of_block3 (o : Byte) (h : 0xC0 ≤ o.toNat) :
    decodeOpcode o = .op (.block3 o) := by
  have hx : (fieldX o).toNat = 3 := by
    have := o.isLt
    rw [fieldX_toNat]
    omega
  simp [decodeOpcode, hx]

/-- The dispatch of an instruction's opcode finds that instruction. -/
theorem decodeOpcode_opcode (i : Instr) (h : i.wellFormed = true) :
    decodeOpcode i.opcode = i.template := by
  cases i with
  | nop | ldR16Imm16 | ldR16memA | ldAR16mem | ldImm16SP | incR16 | decR16 | addHLR16 | incR8
  | incHL | decR8 | decHL | ldR8Imm8 | ldHLImm8 =>
    simp [Instr.opcode, Instr.template, decodeOpcode, decodeBlock0]
  | rlca | rrca | rla | rra | unimplemented18 | unimplemented27 | unimplemented28
  | unimplemented2F | unimplemented37 | unimplemented38 | unimplemented3F => rfl
  | ldR8R8 | ldR8HL | ldHLR8 | reservedHalt =>
    simp [Instr.opcode, Instr.template, decodeOpcode, decodeBlock1]
  | addA | adcA | subA | sbcA | andA | xorA | orA | cpA =>
    simp [Instr.opcode, Instr.template, decodeOpcode, decodeBlock2]
  | block3 o => exact decodeOpcode_of_block3 o (of_decide_eq_true h)

/-- Decoding the bytes of a well-formed instruction gives it back and leaves the bytes after it. -/
theorem decode_encode (i : Instr) (rest : List Byte) (h : i.wellFormed = true) :
    decode (encode i ++ rest) = .ok (i, rest) := by
  simp only [encode, List.cons_append, decode, decodeOpcode_opcode i h]
  cases i <;> simp [Instr.template, Instr.immediateBytes]

/-- What the dispatch of `o` has found is encoded with the opcode `o`, whatever the immediate. -/
def Template.Encodes (o : Byte) : Template → Prop
  | .op i => i.wellFormed = true ∧ encode i = [o]
  | .opI8 f => ∀ n, (f n).wellFormed = true ∧ encode (f n) = [o, n]
  | .opI16 f => ∀ nn, (f nn).wellFormed = true ∧ encode (f nn) = [o, loByte nn, hiByte nn]

/-- The instruction a dispatch has found, once the bytes that follow its opcode are given. -/
def Template.fill (n high : Byte) : Template → Instr
  | .op i => i
  | .opI8 f => f n
  | .opI16 f => f (wordOf high n)

/-- Every byte is the opcode of a well-formed instruction, the one its dispatch finds (R71). -/
theorem opcode_surjective (o : Byte) : ∃ i : Instr, i.wellFormed = true ∧ i.opcode = o := by
  have hfound : ∀ o : Byte, ((decodeOpcode o).fill 0 0).wellFormed = true ∧
      ((decodeOpcode o).fill 0 0).opcode = o := by decide
  exact ⟨_, hfound o⟩

theorem decodeOpcode_encodes (o : Byte) : (decodeOpcode o).Encodes o := by
  obtain ⟨i, hwf, rfl⟩ := opcode_surjective o
  rw [decodeOpcode_opcode i hwf]
  cases i with
  | ldR16Imm16 | ldImm16SP | ldR8Imm8 | ldHLImm8 => exact fun _ => ⟨rfl, rfl⟩
  | _ => exact ⟨hwf, rfl⟩

theorem fill_wellFormed (o n high : Byte) : ((decodeOpcode o).fill n high).wellFormed = true := by
  have h := decodeOpcode_encodes o
  cases ht : decodeOpcode o <;> rw [ht] at h
  case op => exact h.1
  case opI8 => exact (h n).1
  case opI16 => exact (h (wordOf high n)).1

/-- The opcode and the length of a found instruction are those of the byte it was found by (R77). -/
theorem fill_opcode_length (o n high : Byte) :
    ((decodeOpcode o).fill n high).opcode = o ∧
    (encode ((decodeOpcode o).fill n high)).length = 1 + (decodeOpcode o).immediates := by
  have h := decodeOpcode_encodes o
  cases ht : decodeOpcode o <;> rw [ht] at h
  case op => exact ⟨(List.cons.inj h.2).1, congrArg List.length h.2⟩
  case opI8 => exact ⟨(List.cons.inj (h n).2).1, congrArg List.length (h n).2⟩
  case opI16 =>
    exact ⟨(List.cons.inj (h (wordOf high n)).2).1, congrArg List.length (h (wordOf high n)).2⟩

/-- Whatever decodes is the encoding of what it decodes to, which is well formed. -/
theorem eq_encode_of_decode {bytes rest : List Byte} {i : Instr}
    (h : decode bytes = .ok (i, rest)) : i.wellFormed = true ∧ bytes = encode i ++ rest := by
  cases bytes with
  | nil => cases h
  | cons o after =>
    have henc := decodeOpcode_encodes o
    simp only [decode] at h
    split at h
    · next i' rest' hop =>
      cases h
      rw [hop] at henc
      exact ⟨henc.1, by rw [henc.2]; rfl⟩
    · next f n rest' hop =>
      cases h
      rw [hop] at henc
      exact ⟨(henc n).1, by rw [(henc n).2]; rfl⟩
    · cases h
    · next f low high rest' hop =>
      cases h
      rw [hop] at henc
      exact ⟨(henc _).1, by rw [(henc _).2]; simp⟩
    · cases h

/-- Three bytes are enough for any instruction (R77). -/
theorem decode_of_three_bytes (o n high : Byte) (rest : List Byte) :
    ∃ after, decode (o :: n :: high :: rest) = .ok ((decodeOpcode o).fill n high, after) := by
  cases ht : decodeOpcode o <;> simp [decode, ht, Template.fill]

/-! ## The statements -/

/-- Settles O18 by reading the tables at every index. -/
theorem selectorTablesAsDecided : Obligations.SelectorTablesAsDecided := by
  unfold Obligations.SelectorTablesAsDecided
  exact ⟨rfl, rfl, rfl, rfl⟩

/-- Settles O19 by decoding the twelve words. -/
theorem specWordsDecode : Obligations.SpecWordsDecode := by
  unfold Obligations.SpecWordsDecode
  decide

/-- Settles O20: the dispatch of an instruction's opcode finds that instruction. -/
theorem decodeReadsBackEncode : Obligations.DecodeReadsBackEncode := by
  unfold Obligations.DecodeReadsBackEncode
  exact decode_encode

/-- Settles O21: every byte is the opcode of the instruction its dispatch finds, and no instruction
is longer than three bytes. -/
theorem encodeGivesBackDecodedBytes : Obligations.EncodeGivesBackDecodedBytes := by
  unfold Obligations.EncodeGivesBackDecodedBytes
  exact ⟨fun _ _ _ => eq_encode_of_decode,
    fun o n high rest => ⟨_, decode_of_three_bytes o n high rest⟩⟩

/-- Settles O22 by counting, and by looking up the length of each of the 256 opcodes. -/
theorem opcodeCountsAndLengths : Obligations.OpcodeCountsAndLengths := by
  unfold Obligations.OpcodeCountsAndLengths
  exact ⟨by decide +kernel, by decide⟩

end Sys2Proof
end

section
/-! Memory and the MEM port (spec/20_memory.md): the canonical form under a write and as a normal
form, the reading of a history, and the statements about both. -/

namespace Sys2Proof.Machine

/-! ## The canonical form (log 1) -/

theorem Memory.wfFrom_cons_iff (low k : Nat) (w : Byte) (m : Memory) :
    Memory.wfFrom low ((k, w) :: m) = true ↔
      low ≤ k ∧ k < Config.addressSpaceSize ∧ w ≠ Config.unlistedByte ∧
        Memory.wfFrom (k + 1) m = true := by
  simp [Memory.wfFrom, and_assoc]

@[simp] theorem Memory.read_head (k : Nat) (w : Byte) (m : Memory) :
    Memory.read ((k, w) :: m) k = w := if_pos rfl

theorem Memory.read_tail (k x : Nat) (w : Byte) (m : Memory) (h : k ≠ x) :
    Memory.read ((k, w) :: m) x = m.read x := if_neg h

/-- Where a canonical memory has its lowest cell, one that reads alike has no higher one. -/
theorem Memory.head_le_of_read_eq {low k k' : Nat} {w w' : Byte} {m m' : Memory}
    (hm : Memory.wfFrom low ((k, w) :: m) = true) (hm' : Memory.wfFrom low ((k', w') :: m') = true)
    (hread : ∀ x, Memory.read ((k, w) :: m) x = Memory.read ((k', w') :: m') x) : k' ≤ k := by
  by_contra hlt
  obtain ⟨-, -, hw, -⟩ := (Memory.wfFrom_cons_iff low k w m).mp hm
  obtain ⟨-, hk', hw', htail'⟩ := (Memory.wfFrom_cons_iff low k' w' m').mp hm'
  have habove : Memory.wfFrom k' ((k', w') :: m') = true :=
    (Memory.wfFrom_cons_iff k' k' w' m').mpr ⟨le_refl k', hk', hw', htail'⟩
  refine hw ?_
  rw [← Memory.read_head k w m, hread k]
  exact Memory.read_below _ k' k habove (not_le.mp hlt)

/-- A cell of a canonical memory is seen by a read. -/
theorem Memory.not_read_eq_nil {low k : Nat} {w : Byte} {m : Memory}
    (hm : Memory.wfFrom low ((k, w) :: m) = true) :
    ¬ ∀ x, Memory.read ((k, w) :: m) x = Memory.read [] x := by
  intro hread
  obtain ⟨-, -, hw, -⟩ := (Memory.wfFrom_cons_iff low k w m).mp hm
  exact hw ((Memory.read_head k w m).symm.trans (hread k))

theorem Memory.eq_of_read_eq (m m' : Memory) (low : Nat) (hm : Memory.wfFrom low m = true)
    (hm' : Memory.wfFrom low m' = true) (hread : ∀ x, m.read x = m'.read x) : m = m' := by
  induction m generalizing m' low with
  | nil =>
    cases m' with
    | nil => rfl
    | cons => exact absurd (fun x => (hread x).symm) (Memory.not_read_eq_nil hm')
  | cons cell m ih =>
    obtain ⟨k, w⟩ := cell
    cases m' with
    | nil => exact absurd hread (Memory.not_read_eq_nil hm)
    | cons cell' m' =>
      obtain ⟨k', w'⟩ := cell'
      obtain rfl : k = k' := le_antisymm
        (Memory.head_le_of_read_eq hm' hm fun x => (hread x).symm)
        (Memory.head_le_of_read_eq hm hm' hread)
      obtain rfl : w = w' := by simpa using hread k
      obtain ⟨-, -, -, htail⟩ := (Memory.wfFrom_cons_iff low k w m).mp hm
      obtain ⟨-, -, -, htail'⟩ := (Memory.wfFrom_cons_iff low k w m').mp hm'
      rw [ih m' (k + 1) htail htail' fun x => ?_]
      by_cases hx : k = x
      · rw [Memory.read_below m (k + 1) x htail (by omega),
          Memory.read_below m' (k + 1) x htail' (by omega)]
      · rw [← Memory.read_tail k x w m hx, hread x, Memory.read_tail k x w m' hx]

/-! ## The reading of a history (section 4) -/

theorem replay_append (m : Memory) (ts us : List Transaction) :
    replay m (ts ++ us) = (replay m ts).bind (replay · us) := by
  induction ts generalizing m with
  | nil => rfl
  | cons x ts ih =>
    cases x with
    | read a v =>
      simp only [List.cons_append, replay]
      split
      · exact ih m
      · rfl
    | write a v => exact ih (m.write a.toNat v)

/-- Reads that the array of their moment answered leave it as it is. -/
theorem replay_reads (m : Memory) (ts : List Transaction)
    (h : ∀ x ∈ ts, ∃ a, x = .read a (m.read a.toNat)) : replay m ts = some m := by
  induction ts with
  | nil => rfl
  | cons x ts ih =>
    obtain ⟨⟨a, rfl⟩, hts⟩ := List.forall_mem_cons.mp h
    exact (if_pos rfl).trans (ih hts)

theorem replay_dataWrites (m : Memory) (ws : List (Word × Byte)) :
    replay m (dataWrites ws) = some (m.writeAll ws) := by
  induction ws generalizing m with
  | nil => rfl
  | cons w ws ih => exact ih (m.write w.1.toNat w.2)

/-- Once a history has been replayed, the array reads as the history's last write says. -/
theorem read_of_replay (start m : Memory) (ts : List Transaction) (addr : Word)
    (hwf : start.wf = true) (h : replay start ts = some m) :
    m.read addr.toNat = (lastWrite addr ts).getD (start.read addr.toNat) := by
  induction ts generalizing start with
  | nil =>
    obtain rfl : start = m := Option.some.inj h
    rfl
  | cons x ts ih =>
    cases x with
    | read a v =>
      simp only [replay] at h
      split at h
      · exact ih start hwf h
      · cases h
    | write a v =>
      rw [ih (start.write a.toNat v) (Memory.wf_write start a v hwf) h]
      simp only [lastWrite]
      cases lastWrite addr ts with
      | some w => rfl
      | none =>
        by_cases ha : a = addr
        · subst ha
          simp [Memory.read_write_self start 0 a.toNat v hwf]
        · have hne : addr.toNat ≠ a.toNat := fun he => ha (BitVec.eq_of_toNat_eq he.symm)
          simp [ha, Memory.read_write_of_ne start a.toNat addr.toNat v hne]

/-! ## The statements -/

/-- Settles O13 by the laws of a write: what it leaves of a read, and of the form. -/
theorem memoryReadsLastWrite : Obligations.MemoryReadsLastWrite := by
  unfold Obligations.MemoryReadsLastWrite
  intro m a v hm
  exact ⟨Memory.read_write_self m 0 a.toNat v hm,
    fun x hx => Memory.read_write_of_ne m a.toNat x v hx, Memory.wf_write m a v hm⟩

/-- Settles O14: two canonical memories that read alike have the same lowest cell, and so on up. -/
theorem memoryFormIsCanonical : Obligations.MemoryFormIsCanonical := by
  unfold Obligations.MemoryFormIsCanonical
  exact fun m m' => Memory.eq_of_read_eq m m' 0

/-- Settles O15 by what a read does with an empty and with a non-empty oracle. -/
theorem portMovesOneByte : Obligations.PortMovesOneByte := by
  unfold Obligations.PortMovesOneByte
  intro s addr v vs
  refine ⟨fun h => ?_, fun h => ?_, rfl⟩ <;> simp [State.memRead, h]

/-- Settles O52: the reset state's memory and its history are empty. -/
theorem resetMeetsInvariants : Obligations.ResetMeetsInvariants := by
  unfold Obligations.ResetMeetsInvariants
  exact ⟨State.reset_wf, rfl, rfl⟩

/-- Settles O54: of the acts of the outside only the other agent's write reaches memory. -/
theorem hostActsKeepMemoryCanonical : Obligations.HostActsKeepMemoryCanonical := by
  unfold Obligations.HostActsKeepMemoryCanonical
  intro act s hs
  cases act with
  | setRegister8 r v => exact (congrArg Memory.wf (s.setR8_mem r v)).trans hs
  | setRegister16 n v => exact (congrArg Memory.wf (s.setR16_mem n v)).trans hs
  | setFlags | construct | oracle => exact hs
  | busWrite addr v => exact Memory.wf_write s.mem addr v hs

/-- Settles O56: the read is answered by the array that the history before it leaves. -/
theorem readReturnsLatestEarlierWrite : Obligations.ReadReturnsLatestEarlierWrite := by
  unfold Obligations.ReadReturnsLatestEarlierWrite
  intro start m before after a v hwf h
  rw [replay_append] at h
  obtain ⟨m', hbefore, hread⟩ := Option.bind_eq_some_iff.mp h
  have hv : m'.read a.toNat = v := by
    by_contra hne
    simp [replay, hne] at hread
  rw [← hv]
  exact read_of_replay start m' before a hwf hbefore

end Sys2Proof.Machine
end

section
/-! AF (spec/10_state.md sections 1 and 2) and the laws of the ALU (spec/40_alu.md sections 2, 5
and 6): the view F bit by bit, subtraction as addition of the complement, the half carry as a bit of
the result, rotates that undo each other, and the statements about them. -/

namespace Sys2Proof.Machine

/-! ## The view F (D3) -/

theorem Flags.toF_bits (f : Flags) :
    f.toF.getLsbD 7 = f.z ∧ f.toF.getLsbD 6 = f.n ∧ f.toF.getLsbD 5 = f.h ∧
    f.toF.getLsbD 4 = f.c ∧ f.toF.toNat % 16 = 0 := by
  obtain ⟨z, n, h, c⟩ := f
  revert z n h c; decide

theorem Flags.toF_ofF (v : Byte) : (Flags.ofF v).toF = v &&& 0xF0 := by
  revert v; decide

theorem loByte_getLsbD (v : Word) (i : Nat) (hi : i < 8) :
    (loByte v).getLsbD i = v.getLsbD i := by
  simp [loByte, hi]

/-- A mask of a word masks its halves. -/
theorem wordOf_and (high low high' low' : Byte) :
    wordOf high low &&& wordOf high' low' = wordOf (high &&& high') (low &&& low') :=
  BitVec.and_append

/-- Reading AF back gives the value written but for its low nibble. -/
theorem State.getR16_setR16_af (s : State) (v : Word) :
    (s.setR16 .af v).getR16 .af = v &&& 0xFFF0 :=
  calc wordOf (hiByte v) (Flags.ofF (loByte v)).toF
    _ = wordOf (hiByte v &&& 0xFF) (loByte v &&& 0xF0) := by
      rw [Flags.toF_ofF, show (0xFF : Byte) = BitVec.allOnes 8 from rfl, BitVec.and_allOnes]
    _ = wordOf (hiByte v) (loByte v) &&& wordOf 0xFF 0xF0 := (wordOf_and _ _ _ _).symm
    _ = v &&& 0xFFF0 := by rw [wordOf_hiByte_loByte]; rfl

/-! ## The flags of a subtraction (section 2) -/

theorem subC_flags_z_iff (a b : Byte) (cin : Bool) :
    (subC a b cin).flags.z = true ↔ (subC a b cin).result = 0 := decide_eq_true_iff

theorem subC_flags_c_iff (a b : Byte) (cin : Bool) :
    (subC a b cin).flags.c = true ↔ a.toNat < b.toNat + cin.toNat := decide_eq_true_iff

theorem subC_flags_h_iff (a b : Byte) (cin : Bool) :
    (subC a b cin).flags.h = true ↔ a.toNat % 16 < b.toNat % 16 + cin.toNat := decide_eq_true_iff

/-! ## The laws of addition and subtraction (section 6) -/

theorem subC_addC_cancel (a b : Byte) : (subC (addC a b false).result b false).result = a := by
  apply BitVec.eq_of_toNat_eq
  have ha := a.isLt
  have hb := b.isLt
  rw [subC_result_toNat, addC_result_toNat, Bool.toNat_false]
  split <;> omega

theorem not_toNat (b : Byte) : (~~~b).toNat = 255 - b.toNat := BitVec.toNat_not

theorem toNat_bnot (c : Bool) : (!c).toNat = 1 - c.toNat := by cases c <;> rfl

theorem subC_result_eq_addC (a b : Byte) (cin : Bool) :
    (subC a b cin).result = (addC a (~~~b) (!cin)).result := by
  apply BitVec.eq_of_toNat_eq
  have ha := a.isLt
  have hb := b.isLt
  have hcin := cin.toNat_le
  rw [subC_result_toNat, addC_result_toNat, not_toNat, toNat_bnot]
  split <;> omega

/-- A borrow is an addition of the complement that does not carry. -/
theorem subC_flags_c_eq_addC (a b : Byte) (cin : Bool) :
    (subC a b cin).flags.c = !(addC a (~~~b) (!cin)).flags.c := by
  have hb := b.isLt
  have hcin := cin.toNat_le
  rw [Bool.eq_not_iff, ne_eq, Bool.eq_iff_iff, subC_flags_c_iff, addC_flags_c_iff, not_toNat,
    toNat_bnot]
  omega

theorem subC_flags_h_eq_addC (a b : Byte) (cin : Bool) :
    (subC a b cin).flags.h = !(addC a (~~~b) (!cin)).flags.h := by
  have hb := b.isLt
  have hcin := cin.toNat_le
  rw [Bool.eq_not_iff, ne_eq, Bool.eq_iff_iff, subC_flags_h_iff, addC_flags_h_iff, not_toNat,
    toNat_bnot]
  omega

/-- Bit 4 as a number. -/
theorem getLsbD_four_toNat (v : Byte) : (v.getLsbD 4).toNat = v.toNat / 16 % 2 := by
  revert v; decide

/-- The half carry of an addition, as a number. -/
theorem addC_flags_h_toNat (a b : Byte) (cin : Bool) :
    (addC a b cin).flags.h.toNat = (a.toNat % 16 + b.toNat % 16 + cin.toNat) / 16 := by
  have hcin := cin.toNat_le
  by_cases hover : a.toNat % 16 + b.toNat % 16 + cin.toNat > 0xF
  · rw [(addC_flags_h_iff a b cin).mpr hover, Bool.toNat_true]
    omega
  · rw [Bool.eq_false_iff.mpr (mt (addC_flags_h_iff a b cin).mp hover), Bool.toNat_false]
    omega

/-- A one-bit sum gives back its carry-in. -/
theorem carry_eq_xor_of_sum {a b r h : Bool} (hsum : r.toNat = (a.toNat + b.toNat + h.toNat) % 2) :
    h = (a ^^ b ^^ r) := by
  revert a b r h; decide

/-- The half carry is the carry into bit 4 of the sum. -/
theorem addC_flags_h_eq_bit (a b : Byte) (cin : Bool) :
    (addC a b cin).flags.h = (a ^^^ b ^^^ (addC a b cin).result).getLsbD 4 := by
  rw [BitVec.getLsbD_xor, BitVec.getLsbD_xor]
  apply carry_eq_xor_of_sum
  rw [getLsbD_four_toNat, getLsbD_four_toNat, getLsbD_four_toNat, addC_result_toNat,
    addC_flags_h_toNat]
  omega

/-- The half borrow is the borrow into bit 4 of the difference. -/
theorem subC_flags_h_eq_bit (a b : Byte) (cin : Bool) :
    (subC a b cin).flags.h = (a ^^^ b ^^^ (subC a b cin).result).getLsbD 4 := by
  rw [subC_flags_h_eq_addC, subC_result_eq_addC, addC_flags_h_eq_bit]
  simp

/-! ## The laws of the rotates (section 6) -/

theorem rlc_iterate_getLsbD (n : Nat) (a : Byte) (i : Nat) (hi : i < 8) :
    (((fun b => (rlc b).result)^[n]) a).getLsbD i = a.getLsbD ((i + 7 * n) % 8) := by
  induction n generalizing i with
  | zero => rw [Function.iterate_zero_apply, Nat.mul_zero, Nat.add_zero, Nat.mod_eq_of_lt hi]
  | succ n ih =>
    rw [Function.iterate_succ_apply', rlc_result_getLsbD _ i hi, ih _ (Nat.mod_lt _ (by omega))]
    congr 1
    omega

/-- Each left rotate moves every bit by one place, so eight of them move it to its own. -/
theorem rlc_iterate_eight (a : Byte) : ((fun b => (rlc b).result)^[8]) a = a := by
  apply BitVec.eq_of_getLsbD_eq
  intro i hi
  rw [rlc_iterate_getLsbD 8 a i hi, Nat.add_mul_mod_self_right, Nat.mod_eq_of_lt hi]

theorem rrc_rlc (a : Byte) : (rrc (rlc a).result).result = a := by
  apply BitVec.eq_of_getLsbD_eq
  intro i hi
  rw [rrc_result_getLsbD _ i hi, rlc_result_getLsbD _ _ (Nat.mod_lt _ (by omega))]
  congr 1
  omega

theorem rlc_rrc (a : Byte) : (rlc (rrc a).result).result = a := by
  apply BitVec.eq_of_getLsbD_eq
  intro i hi
  rw [rlc_result_getLsbD _ i hi, rrc_result_getLsbD _ _ (Nat.mod_lt _ (by omega))]
  congr 1
  omega

/-- Bit 7 comes back from the carry and every other bit from its left neighbour. -/
theorem rr_rl_result (a : Byte) (cin : Bool) :
    (rr (rl a cin).result (rl a cin).flags.c).result = a := by
  apply BitVec.eq_of_getLsbD_eq
  intro i hi
  rw [rr_result_getLsbD _ _ i hi]
  by_cases h7 : i = 7
  · rw [if_pos h7, h7]
    rfl
  · rw [if_neg h7, rl_result_getLsbD a cin (i + 1) (by omega)]
    rfl

theorem rr_rl_carry (a : Byte) (cin : Bool) :
    (rr (rl a cin).result (rl a cin).flags.c).flags.c = cin :=
  rl_result_getLsbD a cin 0 (by omega)

/-! ## The statements -/

/-- Settles O4: the view F bit by bit, and a write of AF keeps of its low half the high nibble. -/
theorem afHoldsFlagsAtDecidedBits : Obligations.AfHoldsFlagsAtDecidedBits := by
  unfold Obligations.AfHoldsFlagsAtDecidedBits
  intro s v
  have hlow := loByte_getLsbD v
  exact ⟨s.flags.toF_bits,
    ⟨hlow 7 (by omega), hlow 6 (by omega), hlow 5 (by omega), hlow 4 (by omega)⟩,
    s.getR16_setR16_af v, rfl, rfl, rfl, rfl, rfl⟩

/-- Settles O7 by the law of the difference and one law for each flag. -/
theorem subtractWithBorrowResultAndFlags : Obligations.SubtractWithBorrowResultAndFlags := by
  unfold Obligations.SubtractWithBorrowResultAndFlags
  intro a b cin
  exact ⟨subC_result_toInt a b cin, subC_flags_c_iff a b cin, subC_flags_h_iff a b cin,
    subC_flags_z_iff a b cin, rfl⟩

/-- Settles O10 bit by bit. -/
theorem rotatesUndoEachOther : Obligations.RotatesUndoEachOther := by
  unfold Obligations.RotatesUndoEachOther
  intro a cin
  exact ⟨rlc_iterate_eight a, rrc_rlc a, rlc_rrc a, rr_rl_result a cin, rr_rl_carry a cin⟩

/-- Settles O11: a subtraction adds the complement, and its half borrow is that addition's half
carry complemented. -/
theorem subtractIsAddOfComplement : Obligations.SubtractIsAddOfComplement := by
  unfold Obligations.SubtractIsAddOfComplement
  intro a b cin
  exact ⟨subC_addC_cancel a b, subC_result_eq_addC a b cin, subC_flags_c_eq_addC a b cin,
    subC_flags_h_eq_addC a b cin, subC_flags_h_eq_bit a b cin, addC_flags_h_eq_bit a b cin⟩

/-- Settles O12: the low bytes hand their carry to the high ones. -/
theorem add16CarriesOutOfBits15And11 : Obligations.Add16CarriesOutOfBits15And11 := by
  unfold Obligations.Add16CarriesOutOfBits15And11
  intro v w
  exact ⟨add16_toNat v w, rfl, add16_flags_c_iff v w, add16_flags_h_iff v w⟩

end Sys2Proof.Machine
end

section
/-! The step (spec/41_engine_step.md): which instructions complete, what a step makes of the opcode
at PC, the transactions of a step, and the statements about steps of every kind. -/

namespace Sys2Proof

/-- The instructions that raise the error condition (R173, R200, R201). -/
def Instr.raises : Instr → Bool
  | .unimplemented18 | .unimplemented27 | .unimplemented28 | .unimplemented2F | .unimplemented37
  | .unimplemented38 | .unimplemented3F | .reservedHalt | .block3 _ => true
  | _ => false

/-- The table of causes says which opcodes are those of a raising instruction (R211). -/
theorem raises_eq_isSome_faultCause (i : Instr) (h : i.wellFormed = true) :
    i.raises = (faultCause i.opcode).isSome := by
  have htable : ∀ o : Byte, ((decodeOpcode o).fill 0 0).raises = (faultCause o).isSome := by
    decide
  have hfill : (i.template.fill 0 0).raises = i.raises := by cases i <;> rfl
  rw [← hfill, ← decodeOpcode_opcode i h, htable]

theorem immediateBytes_length_le (i : Instr) : i.immediateBytes.length ≤ 2 := by
  cases i <;> simp [Instr.immediateBytes]

theorem faultCause_eq_block3_iff (o : Byte) : faultCause o = some .block3 ↔ 0xC0 ≤ o.toNat := by
  revert o; decide

theorem faultCause_eq_reservedHalt_iff (o : Byte) :
    faultCause o = some .reservedHalt ↔ o = 0x76 := by
  revert o; decide

theorem faultCause_eq_block0Uncovered_iff (o : Byte) :
    faultCause o = some .block0Uncovered ↔
      o ∈ [0x18, 0x27, 0x28, 0x2F, 0x37, 0x38, (0x3F : Byte)] := by
  revert o; decide

namespace Machine

/-! ## Outcomes of the meanings -/

theorem exec_of_raises (i : Instr) (s : State) (h : i.raises = true) :
    exec i s = .fault (.unimplemented i.opcode s.pc s.afterFailure) := by
  cases i with
  | unimplemented18 | unimplemented27 | unimplemented28 | unimplemented2F | unimplemented37
  | unimplemented38 | unimplemented3F | reservedHalt | block3 => exact raiseUnimplemented_eq _ s
  | _ => exact absurd h Bool.false_ne_true

theorem exec_of_not_raises (i : Instr) (s : State) (h : i.raises = false) :
    ∃ t, exec i s = .next t := by
  cases i with
  | unimplemented18 | unimplemented27 | unimplemented28 | unimplemented2F | unimplemented37
  | unimplemented38 | unimplemented3F | reservedHalt | block3 =>
    exact absurd h.symm Bool.false_ne_true
  | _ => exact ⟨_, rfl⟩

/-! ## The instruction a step fetches -/

theorem State.fetchInstr_eq_fill (s : State) :
    s.fetchInstr = (decodeOpcode (s.fetchedByte 0)).fill (s.fetchedByte 1) (s.fetchedByte 2) := by
  rw [State.fetchInstr_eq]
  cases decodeOpcode (s.fetchedByte 0) <;> rfl

theorem State.fetchInstr_wellFormed (s : State) : s.fetchInstr.wellFormed = true := by
  rw [State.fetchInstr_eq_fill]
  exact fill_wellFormed _ _ _

theorem State.fetchInstr_opcode (s : State) : s.fetchInstr.opcode = s.fetchedByte 0 := by
  rw [State.fetchInstr_eq_fill]
  exact (fill_opcode_length _ _ _).1

/-- What the three bytes the port answers at PC decode to is the instruction a step fetches. -/
theorem State.fetchInstr_eq_of_decode (s : State) (i : Instr) (rest : List Byte)
    (h : decode [s.fetchedByte 0, s.fetchedByte 1, s.fetchedByte 2] = .ok (i, rest)) :
    s.fetchInstr = i := by
  obtain ⟨after, hfill⟩ :=
    decode_of_three_bytes (s.fetchedByte 0) (s.fetchedByte 1) (s.fetchedByte 2) []
  rw [h, ← State.fetchInstr_eq_fill] at hfill
  exact (congrArg Prod.fst (Except.ok.inj hfill)).symm

/-- In the closed form the array answers every read. -/
theorem State.answer_of_closed (s : State) (k : Nat) (addr : Word) (h : s.answers = []) :
    s.answer k addr = s.mem.read addr.toNat := by
  simp [State.answer, h]

theorem State.fetchedByte_of_closed (s : State) (k : Nat) (h : s.answers = []) :
    s.fetchedByte k = s.mem.read ((s.pc.toNat + k) % 65536) := by
  rw [State.fetchedByte, s.answer_of_closed _ _ h, BitVec.toNat_add, BitVec.toNat_ofNat,
    Nat.add_mod_mod]

/-- In the closed form a step fetches the instruction whose bytes the array holds at PC. -/
theorem State.fetchInstr_eq_of_mem (s : State) (i : Instr) (hwf : i.wellFormed = true)
    (hans : s.answers = [])
    (hmem : ∀ k, k < (encode i).length →
      (encode i)[k]? = some (s.mem.read ((s.pc.toNat + k) % 65536))) :
    s.fetchInstr = i := by
  have hlen : (encode i).length ≤ 3 := Nat.succ_le_succ (immediateBytes_length_le i)
  have hbytes : encode i <+: [s.fetchedByte 0, s.fetchedByte 1, s.fetchedByte 2] := by
    rw [List.prefix_iff_getElem?]
    intro k hk
    have hbyte := hmem k hk
    rw [← s.fetchedByte_of_closed k hans, List.getElem?_eq_getElem hk] at hbyte
    rw [hbyte]
    obtain rfl | rfl | rfl : k = 0 ∨ k = 1 ∨ k = 2 := by omega
    all_goals rfl
  obtain ⟨rest, hrest⟩ := hbytes
  exact s.fetchInstr_eq_of_decode i rest (hrest ▸ decode_encode i rest hwf)

/-! ## Outcomes of a step -/

theorem step_eq_fault (s : State) (h : faultCause (s.fetchedByte 0) ≠ none) :
    step s = .fault (.unimplemented (s.fetchedByte 0) s.pc s.afterFailure) := by
  have hraises : s.fetchInstr.raises = true := by
    rw [raises_eq_isSome_faultCause _ s.fetchInstr_wellFormed, s.fetchInstr_opcode]
    exact Option.isSome_iff_ne_none.mpr h
  rw [← s.fetchInstr_opcode]
  exact exec_of_raises s.fetchInstr s hraises

theorem step_eq_next (s : State) (h : faultCause (s.fetchedByte 0) = none) :
    ∃ t, step s = .next t := by
  have hraises : s.fetchInstr.raises = false := by
    rw [raises_eq_isSome_faultCause _ s.fetchInstr_wellFormed, s.fetchInstr_opcode, h]
    rfl
  exact exec_of_not_raises s.fetchInstr s hraises

theorem faultCause_of_step_fault {s : State} {r : Fault} (h : step s = .fault r) :
    faultCause (s.fetchedByte 0) ≠ none := by
  intro hnone
  obtain ⟨t, ht⟩ := step_eq_next s hnone
  exact nomatch ht.symm.trans h

theorem faultCause_of_step_next {s t : State} (h : step s = .next t) :
    faultCause (s.fetchedByte 0) = none := by
  by_contra hsome
  exact nomatch (step_eq_fault s hsome).symm.trans h

theorem eq_of_step_fault {s : State} {r : Fault} (h : step s = .fault r) :
    r = .unimplemented (s.fetchedByte 0) s.pc s.afterFailure :=
  Host.Outcome.fault.inj (h.symm.trans (step_eq_fault s (faultCause_of_step_fault h)))

theorem opcodeLength_of_step_next {s t : State} (h : step s = .next t) :
    opcodeLength (s.fetchedByte 0) = some (encode s.fetchInstr).length := by
  rw [opcodeLength, faultCause_of_step_next h, State.fetchInstr_eq_fill,
    (fill_opcode_length _ _ _).2]

/-- The effect of a completed step on PC, port and memory. -/
theorem step_portEffect {s t : State} (h : step s = .next t) :
    PortEffect (encode s.fetchInstr).length (dataReadAddrs s s.fetchInstr)
      (dataWriteBytes s s.fetchInstr) s t :=
  exec_portEffect s.fetchInstr s t h

theorem State.fetchedByte_congr {s u : State} (k : Nat) (hpc : u.pc = s.pc) (hmem : u.mem = s.mem)
    (hans : u.answers = s.answers) : u.fetchedByte k = s.fetchedByte k := by
  simp only [State.fetchedByte, State.answer, hpc, hmem, hans]

/-- Whether a step faults, and with what condition, is up to PC, memory and the answers. -/
theorem step_fault_of_same {s u : State} {r : Fault} (h : step s = .fault r) (hpc : u.pc = s.pc)
    (hmem : u.mem = s.mem) (hans : u.answers = s.answers) :
    step u = .fault (.unimplemented r.opcode r.pc u.afterFailure) := by
  have hbyte : u.fetchedByte 0 = s.fetchedByte 0 := State.fetchedByte_congr 0 hpc hmem hans
  rw [step_eq_fault u (hbyte ▸ faultCause_of_step_fault h), eq_of_step_fault h, hbyte, hpc]
  rfl

/-! ## The transactions of a step (D8) -/

theorem dataReadAddrs_length_le (s : State) (i : Instr) : (dataReadAddrs s i).length ≤ 1 := by
  cases i with
  | ldAR16mem | incHL | decHL | ldR8HL => exact le_refl 1
  | addA o | adcA o | subA o | sbcA o | andA o | xorA o | orA o | cpA o =>
    cases o with
    | reg => exact Nat.zero_le 1
    | indirectHL => exact le_refl 1
  | _ => exact Nat.zero_le 1

/-- An instruction with an immediate reads no data. -/
theorem immediates_add_reads_le (s : State) (i : Instr) :
    i.immediateBytes.length + (dataReadAddrs s i).length ≤ 2 := by
  have hreads := dataReadAddrs_length_le s i
  cases i with
  | ldR16Imm16 | ldImm16SP => exact le_refl 2
  | ldR8Imm8 | ldHLImm8 => exact Nat.le_succ 1
  | _ =>
    rw [Instr.immediateBytes, List.length_nil]
    omega

theorem map_fst_dataWriteBytes (s : State) (i : Instr) :
    (dataWriteBytes s i).map Prod.fst = i.storedAddrs s := by
  cases i <;> rfl

theorem dataWriteBytes_length_le (s : State) (i : Instr) : (dataWriteBytes s i).length ≤ 2 := by
  rw [← List.length_map Prod.fst, map_fst_dataWriteBytes]
  cases i <;> simp [Instr.storedAddrs]

theorem isRead_of_mem_dataReads {s : State} {n : Nat} {addrs : List Word} {x : Transaction}
    (h : x ∈ s.dataReads n addrs) : x.isRead = true := by
  obtain ⟨a, -, rfl⟩ := List.mem_map.mp h
  rfl

theorem isRead_of_mem_fetchReads {s : State} {n : Nat} {x : Transaction}
    (h : x ∈ s.fetchReads n) : x.isRead = true := by
  obtain ⟨k, -, rfl⟩ := List.mem_map.mp h
  rfl

theorem isRead_of_mem_dataWrites {ws : List (Word × Byte)} {x : Transaction}
    (h : x ∈ dataWrites ws) : x.isRead = false := by
  obtain ⟨w, -, rfl⟩ := List.mem_map.mp h
  rfl

theorem dataWrites_map_addr (ws : List (Word × Byte)) :
    (dataWrites ws).map Transaction.addr = ws.map Prod.fst :=
  List.map_map

theorem dataReads_map_addr (s : State) (n : Nat) (addrs : List Word) :
    (s.dataReads n addrs).map Transaction.addr = addrs :=
  List.map_map.trans (List.map_id' addrs)

theorem fetchReads_map_addr (s : State) (n : Nat) :
    (s.fetchReads n).map Transaction.addr =
      (List.range n).map fun k => s.pc + BitVec.ofNat 16 k :=
  List.map_map

theorem PortEffect.newTransactions_eq {n : Nat} {addrs : List Word} {ws : List (Word × Byte)}
    {s t : State} (e : PortEffect n addrs ws s t) :
    newTransactions s t = s.fetchReads n ++ s.dataReads n addrs ++ dataWrites ws := by
  rw [newTransactions, e.bus, List.append_assoc, List.append_assoc, List.drop_left,
    List.append_assoc]

/-- The writes of a step are those of its data. -/
theorem PortEffect.writes_eq {n : Nat} {addrs : List Word} {ws : List (Word × Byte)}
    {s t : State} (e : PortEffect n addrs ws s t) :
    ((newTransactions s t).filter fun x => !x.isRead) = dataWrites ws := by
  have hfetches : (s.fetchReads n).filter (fun x => !x.isRead) = [] :=
    List.filter_eq_nil_iff.mpr fun x hx => by simp [isRead_of_mem_fetchReads hx]
  have hreads : (s.dataReads n addrs).filter (fun x => !x.isRead) = [] :=
    List.filter_eq_nil_iff.mpr fun x hx => by simp [isRead_of_mem_dataReads hx]
  have hwrites : (dataWrites ws).filter (fun x => !x.isRead) = dataWrites ws :=
    List.filter_eq_self.mpr fun x hx => by simp [isRead_of_mem_dataWrites hx]
  rw [e.newTransactions_eq, List.filter_append, List.filter_append, hfetches, hreads, hwrites]
  rfl

/-! ## The closed form (R53) -/

theorem replay_fetchReads_dataReads (s : State) (n : Nat) (addrs : List Word)
    (hans : s.answers = []) :
    replay s.mem (s.fetchReads n ++ s.dataReads n addrs) = some s.mem := by
  refine replay_reads s.mem _ fun x hx => ?_
  rcases List.mem_append.mp hx with hx | hx
  · obtain ⟨k, -, rfl⟩ := List.mem_map.mp hx
    exact ⟨_, congrArg _ (s.answer_of_closed _ _ hans)⟩
  · obtain ⟨a, -, rfl⟩ := List.mem_map.mp hx
    exact ⟨_, congrArg _ (s.answer_of_closed _ _ hans)⟩

theorem PortEffect.closedFrom {n : Nat} {addrs : List Word} {ws : List (Word × Byte)}
    {s t : State} {start : Memory} (e : PortEffect n addrs ws s t) (h : ClosedFrom start s) :
    ClosedFrom start t := by
  obtain ⟨hans, hreplay⟩ := h
  constructor
  · rw [e.answers, hans, List.drop_nil]
  · rw [e.bus, List.append_assoc s.bus, replay_append, replay_append, hreplay, Option.bind_some,
      replay_fetchReads_dataReads s n addrs hans, Option.bind_some, replay_dataWrites, e.mem]

/-- A failed step has made the first fetch and no other transaction. -/
theorem State.afterFailure_bus_eq_fetchReads (s : State) :
    s.afterFailure.bus = s.bus ++ s.fetchReads 1 := by
  simp [State.fetchReads]

/-- In the closed form a second failure reads the same opcode again. -/
theorem State.afterFailure_afterFailure (s : State) (hans : s.answers = []) :
    s.afterFailure.afterFailure = { s with
      bus := s.bus ++ [.read s.pc (s.fetchedByte 0), .read s.pc (s.fetchedByte 0)] } := by
  simp [State.afterFailure, State.fetchedByte, State.answer, hans]

theorem State.afterFailure_closedFrom {s : State} {start : Memory} (h : ClosedFrom start s) :
    ClosedFrom start s.afterFailure := by
  obtain ⟨hans, hreplay⟩ := h
  have hreads := replay_fetchReads_dataReads s 1 [] hans
  rw [State.dataReads, List.map_nil, List.append_nil] at hreads
  constructor
  · rw [State.afterFailure_answers, hans, List.drop_nil]
  · rw [State.afterFailure_bus_eq_fetchReads, replay_append, hreplay, Option.bind_some, hreads,
      State.afterFailure_mem]

/-! ## The statements -/

/-- Settles O45: three bytes decode to the instruction a step fetches, and the array's bytes of a
well-formed instruction are the first of them. -/
theorem stepRunsTheInstructionAtPc : Obligations.StepRunsTheInstructionAtPc := by
  unfold Obligations.StepRunsTheInstructionAtPc
  refine ⟨fun s i rest h => ?_, fun s i hwf hans hmem => ?_⟩
  · rw [step, s.fetchInstr_eq_of_decode i rest h]
  · rw [step, s.fetchInstr_eq_of_mem i hwf hans hmem]

/-- Settles O46: the opcodes with a cause are those of the raising instructions. -/
theorem faultExactlyOnUnimplementedOpcodes : Obligations.FaultExactlyOnUnimplementedOpcodes := by
  unfold Obligations.FaultExactlyOnUnimplementedOpcodes
  exact ⟨fun o => ⟨faultCause_eq_block3_iff o, faultCause_eq_reservedHalt_iff o,
      faultCause_eq_block0Uncovered_iff o⟩,
    fun s => ⟨⟨fun ⟨_, h⟩ => faultCause_of_step_fault h, fun h => ⟨_, step_eq_fault s h⟩⟩,
      fun _ => eq_of_step_fault⟩⟩

/-- Settles O47: an opcode without a cause completes, and one with a cause faults. -/
theorem implementedOpcodesComplete : Obligations.ImplementedOpcodesComplete := by
  unfold Obligations.ImplementedOpcodesComplete
  refine fun s => ⟨⟨fun ⟨_, h⟩ => faultCause_of_step_next h, step_eq_next s⟩, fun r h => ?_⟩
  by_cases hcause : faultCause (s.fetchedByte 0) = none
  · obtain ⟨t, ht⟩ := step_eq_next s hcause
    exact nomatch ht.symm.trans h
  · exact nomatch (step_eq_fault s hcause).symm.trans h

/-- Settles O48: a completed step has fetched the bytes of its instruction and moved PC no
further. -/
theorem pcAdvancesByLength : Obligations.PcAdvancesByLength := by
  unfold Obligations.PcAdvancesByLength
  intro s t h
  refine ⟨_, opcodeLength_of_step_next h, ?_⟩
  rw [(step_portEffect h).pc, BitVec.toNat_add, BitVec.toNat_ofNat, Nat.add_mod_mod]

/-- Settles O49: the effect of a completed step lists its transactions in that order, and an
instruction with an immediate reads no data. -/
theorem stepTransactionsFetchesReadsWrites : Obligations.StepTransactionsFetchesReadsWrites := by
  unfold Obligations.StepTransactionsFetchesReadsWrites
  constructor
  · intro s r h
    rw [eq_of_step_fault h]
    exact ⟨s.afterFailure_bus_eq_fetchReads, rfl⟩
  · intro s t h
    have hreads := dataReadAddrs_length_le s s.fetchInstr
    have hwrites := dataWriteBytes_length_le s s.fetchInstr
    have hsum := immediates_add_reads_le s s.fetchInstr
    refine ⟨_, _, _, opcodeLength_of_step_next h, (step_portEffect h).bus,
      fun _ => isRead_of_mem_dataReads, fun _ => isRead_of_mem_dataWrites, ?_, ?_, ?_⟩ <;>
      simp only [State.dataReads, dataWrites, encode, List.length_map, List.length_cons] <;> omega

/-- Settles O50: the bytes an instruction writes stand at its stored addresses. -/
theorem onlyStoredAddressesChange : Obligations.OnlyStoredAddressesChange := by
  unfold Obligations.OnlyStoredAddressesChange
  intro i s t h
  have hport := exec_portEffect i s t h
  rw [hport.writes_eq, dataWrites_map_addr, ← map_fst_dataWriteBytes]
  exact ⟨hport.sameMemBut, rfl⟩

/-- Settles O53: a completed step only writes at 16-bit addresses, and a failed one writes
nothing. -/
theorem stepKeepsMemoryCanonical : Obligations.StepKeepsMemoryCanonical := by
  unfold Obligations.StepKeepsMemoryCanonical
  rintro s t hs (h | ⟨r, h, rfl⟩)
  · rw [State.Inv, (step_portEffect h).mem]
    exact Memory.wf_writeAll _ s.mem hs
  · rw [eq_of_step_fault h]
    exact hs

/-- Settles O55: the array answers the reads of a step, completed or failed, and then takes its
writes. -/
theorem stepKeepsHistoryConsistent : Obligations.StepKeepsHistoryConsistent := by
  unfold Obligations.StepKeepsHistoryConsistent
  rintro start s t hs (h | ⟨r, h, rfl⟩)
  · exact (step_portEffect h).closedFrom hs
  · rw [eq_of_step_fault h]
    exact State.afterFailure_closedFrom hs

/-- Settles O59: the store leaves PC on the address it wrote, and the array answers the fetch. -/
theorem storedOpcodeIsFetchedNext : Obligations.StoredOpcodeIsFetchedNext := by
  unfold Obligations.StoredOpcodeIsFetchedNext
  intro s t src hs hans hhl h
  have hport : PortEffect 1 [] [(s.hl, s.getR8 src)] s t := exec_portEffect (.ldHLR8 src) s t h
  have hpc : t.pc = s.hl := hport.pc.trans hhl.symm
  have hans' : t.answers = [] := by rw [hport.answers, hans, List.drop_nil]
  have hbyte : t.mem.read ((t.pc.toNat + 0) % 65536) = s.getR8 src := by
    rw [Nat.add_zero, Nat.mod_eq_of_lt t.pc.isLt, hpc]
    exact hport.read_written hs
  refine ⟨(t.fetchedByte_of_closed 0 hans').trans hbyte, fun i hwf hencode => ?_⟩
  rw [step, t.fetchInstr_eq_of_mem i hwf hans' fun k hk => ?_]
  rw [hencode] at hk ⊢
  obtain rfl : k = 0 := Nat.lt_one_iff.mp hk
  exact congrArg some hbyte.symm

/-- Settles O60: the outcome of a faulting step depends on PC, memory and the answers alone, and a
failed step changes none of them in the closed form. -/
theorem faultRecurs : Obligations.FaultRecurs := by
  unfold Obligations.FaultRecurs
  intro s r h
  refine ⟨fun act hpc hmem hans => step_fault_of_same h hpc hmem hans, fun hans => ?_⟩
  obtain rfl := eq_of_step_fault h
  have hans' : s.afterFailure.answers = s.answers := by
    rw [State.afterFailure_answers, hans, List.drop_nil]
  rw [Fault.after, step_fault_of_same (u := s.afterFailure) h rfl rfl hans',
    s.afterFailure_afterFailure hans]
  rfl

end Machine

end Sys2Proof
end

section
/-! The flags (spec/10_state.md section 3): a step of a state with other flags, what each
instruction commits, and the statements about who reads and who writes the flags and SP. -/

namespace Sys2Proof.Machine

/-- The mask of no flag. -/
def Flags.none : Flags := { z := false, n := false, h := false, c := false }

/-- The flags an instruction commits. -/
def flagMask : Instr → Flags
  | .incR8 _ | .incHL | .decR8 _ | .decHL => Flags.butCarry
  | .addHLR16 _ => Flags.butZero
  | .rlca | .rrca | .rla | .rra | .addA _ | .adcA _ | .subA _ | .sbcA _ | .andA _ | .xorA _
  | .orA _ | .cpA _ => Flags.all
  | _ => Flags.none

/-- The same state with other flags, reducible so that it is the record update of the statements. -/
abbrev State.withFlags (s : State) (f : Flags) : State := { s with flags := f }

/-- Beside what it commits under its mask, an instruction has no effect that depends on the flags,
unless it reads Carry: from a state with other flags it leaves the same state but for the flags. -/
theorem exec_withFlags (i : Instr) (s t : State) (f : Flags)
    (hcarry : i.readsCarry = true → f.c = s.flags.c) (h : exec i s = .next t) :
    exec i (s.withFlags f) = .next (t.withFlags (f.commit t.flags (flagMask i))) := by
  cases i with
  | nop | ldImm16SP | ldHLImm8 | rlca | rrca | incHL | decHL | ldHLR8 =>
    rw [next_inj h]
    rfl
  | ldR16Imm16 w | incR16 w | decR16 w | addHLR16 w =>
    rw [next_inj h]
    cases w <;> rfl
  | ldR16memA m | ldAR16mem m =>
    rw [next_inj h]
    cases m <;> rfl
  | incR8 r | decR8 r | ldR8Imm8 r | ldR8R8 r | ldR8HL r =>
    rw [next_inj h]
    cases r <;> rfl
  | addA o | subA o | andA o | xorA o | orA o | cpA o =>
    rw [next_inj h]
    cases o <;> rfl
  | adcA o | sbcA o =>
    obtain ⟨z, n, half, c⟩ := f
    obtain rfl : c = s.flags.c := hcarry rfl
    rw [next_inj h]
    cases o <;> rfl
  | rla | rra =>
    obtain ⟨z, n, half, c⟩ := f
    obtain rfl : c = s.flags.c := hcarry rfl
    rw [next_inj h]
    rfl
  | unimplemented18 | unimplemented27 | unimplemented28 | unimplemented2F | unimplemented37
  | unimplemented38 | unimplemented3F | reservedHalt | block3 => exact nomatch h

theorem State.withFlags_self (s : State) : s.withFlags s.flags = s := rfl

theorem exec_flags {i : Instr} {s t : State} (h : exec i s = .next t) :
    t.flags = s.flags.commit t.flags (flagMask i) := by
  have hself := exec_withFlags i s t s.flags (fun _ => rfl) h
  rw [s.withFlags_self, h] at hself
  exact (congrArg State.flags (next_inj hself)).symm

/-- With other flags an instruction has the same outcome: it completes with what it commits, or it
fails and keeps them. -/
theorem exec_withFlags_outcome (i : Instr) (s : State) (f : Flags)
    (hcarry : i.readsCarry = true → f.c = s.flags.c) :
    (∃ t, exec i s = .next t ∧
      exec i (s.withFlags f) = .next (t.withFlags (f.commit t.flags (flagMask i))) ∧
      t.flags = s.flags.commit t.flags (flagMask i)) ∨
    (exec i s = .fault (.unimplemented i.opcode s.pc s.afterFailure) ∧
      exec i (s.withFlags f) =
        .fault (.unimplemented i.opcode s.pc (s.afterFailure.withFlags f))) := by
  cases hraises : i.raises with
  | true => exact .inr ⟨exec_of_raises i s hraises, exec_of_raises i (s.withFlags f) hraises⟩
  | false =>
    obtain ⟨t, h⟩ := exec_of_not_raises i s hraises
    exact .inl ⟨t, h, exec_withFlags i s t f hcarry h, exec_flags h⟩

theorem step_withFlags (s : State) (f : Flags) :
    step (s.withFlags f) = exec s.fetchInstr (s.withFlags f) := by
  rw [step, State.fetchInstr_congr s (s.withFlags f) rfl rfl rfl]

theorem State.withFlags_of_sameCarry (t : State) (g : Flags) (hc : t.flags.c = g.c) :
    t.withFlags g = { t with flags := { z := g.z, n := g.n, h := g.h, c := t.flags.c } } := by
  rw [hc]

theorem State.withFlags_of_sameButCarry (t : State) (g : Flags) (hz : t.flags.z = g.z)
    (hn : t.flags.n = g.n) (hh : t.flags.h = g.h) :
    t.withFlags g =
      { t with flags := { z := t.flags.z, n := t.flags.n, h := t.flags.h, c := g.c } } := by
  rw [hz, hn, hh]

/-! ## Who writes the flags and SP -/

theorem flagMask_of_not_commitsFlags (i : Instr) (h : i.commitsFlags = false) :
    flagMask i = Flags.none := by
  cases i with
  | addHLR16 | incR8 | incHL | decR8 | decHL | rlca | rrca | rla | rra | addA | adcA | subA | sbcA
  | andA | xorA | orA | cpA => exact absurd h.symm Bool.false_ne_true
  | _ => rfl

theorem State.setR16_fetched_sp (s : State) (n : Nat) (w : R16) (v : Word) (hw : w ≠ .sp) :
    ((s.fetched n).setR16 w.reg16 v).sp = s.sp := by
  rw [State.setR16_sp _ _ _ (R16.reg16_ne_sp w hw), State.fetched_sp]

@[simp] theorem State.readOperand8_sp (s : State) (o : Operand8) :
    (s.readOperand8 o).2.sp = s.sp := by
  cases o <;> rfl

@[simp] theorem State.r16memPost_sp (s : State) (m : R16Mem) (addr : Word) :
    (s.r16memPost m addr).sp = s.sp := by
  cases m <;> rfl

@[simp] theorem State.memWrite16_sp (s : State) (addr v : Word) :
    (s.memWrite16 addr v).sp = s.sp := rfl

theorem exec_sp (i : Instr) (s t : State) (hi : i.writesSP = false) (h : exec i s = .next t) :
    t.sp = s.sp := by
  cases i with
  | ldR16Imm16 w | incR16 w | decR16 w =>
    have hw : w ≠ .sp := of_decide_eq_false hi
    rw [next_inj h]
    exact s.setR16_fetched_sp _ w _ hw
  | nop | ldR16memA | ldAR16mem | ldImm16SP | addHLR16 | incR8 | incHL | decR8 | decHL | ldR8Imm8
  | ldHLImm8 | rlca | rrca | rla | rra | ldR8R8 | ldR8HL | ldHLR8 | addA | adcA | subA | sbcA | andA
  | xorA | orA | cpA =>
    rw [next_inj h]
    simp
  | unimplemented18 | unimplemented27 | unimplemented28 | unimplemented2F | unimplemented37
  | unimplemented38 | unimplemented3F | reservedHalt | block3 => exact nomatch h

/-! ## The addresses of a step -/

/-- The addresses a completed instruction accesses: of its fetches, of the data it reads, and of
the data it writes. -/
theorem exec_addrs {i : Instr} {s t : State} (h : exec i s = .next t) :
    (newTransactions s t).map Transaction.addr =
      ((List.range (encode i).length).map fun k => s.pc + BitVec.ofNat 16 k) ++
        dataReadAddrs s i ++ i.storedAddrs s := by
  rw [(exec_portEffect i s t h).newTransactions_eq, List.map_append, List.map_append,
    fetchReads_map_addr, dataReads_map_addr, dataWrites_map_addr, map_fst_dataWriteBytes]

theorem dataReadAddrs_sp (s : State) (v : Word) (i : Instr) :
    dataReadAddrs { s with sp := v } i = dataReadAddrs s i := by
  cases i with
  | ldAR16mem m => cases m <;> rfl
  | addA o | adcA o | subA o | sbcA o | andA o | xorA o | orA o | cpA o => cases o <;> rfl
  | _ => rfl

theorem storedAddrs_sp (s : State) (v : Word) (i : Instr) :
    i.storedAddrs { s with sp := v } = i.storedAddrs s := by
  cases i with
  | ldR16memA m => cases m <;> rfl
  | _ => rfl

/-! ## The statements -/

/-- Settles O51: what an instruction commits is under its mask, and no address of a step depends on
SP. -/
theorem flagsAndSpWrittenOnlyByTheirInstructions :
    Obligations.FlagsAndSpWrittenOnlyByTheirInstructions := by
  unfold Obligations.FlagsAndSpWrittenOnlyByTheirInstructions
  intro i s t h
  refine ⟨fun hi => ?_, fun hi => exec_sp i s t hi h, fun v t' h' => ?_⟩
  · rw [exec_flags h, flagMask_of_not_commitsFlags i hi]
    rfl
  · rw [exec_addrs h', exec_addrs h, dataReadAddrs_sp, storedAddrs_sp]

/-- Settles O57: both steps run the same instruction; what it commits depends on Carry alone, which
the two states share. -/
theorem zeroSubtractHalfCarryAreNeverRead : Obligations.ZeroSubtractHalfCarryAreNeverRead := by
  unfold Obligations.ZeroSubtractHalfCarryAreNeverRead
  intro s z n h
  have hstep := step_withFlags s { z := z, n := n, h := h, c := s.flags.c }
  have houtcome := exec_withFlags_outcome s.fetchInstr s
    { z := z, n := n, h := h, c := s.flags.c } fun _ => rfl
  rw [← hstep] at houtcome
  rcases houtcome with ⟨t, ht, ht', hflags⟩ | ⟨hr, hr'⟩
  · rw [step, ht, ht']
    have hc := congrArg Flags.c hflags
    exact t.withFlags_of_sameCarry _ hc
  · rw [step, hr, hr']
    exact ⟨rfl, rfl, rfl, rfl⟩

/-- Settles O58: what an instruction that does not read Carry commits does not depend on Carry. -/
theorem carryReadOnlyByFourInstructions : Obligations.CarryReadOnlyByFourInstructions := by
  unfold Obligations.CarryReadOnlyByFourInstructions
  intro i s c hi
  rcases exec_withFlags_outcome i s { s.flags with c := c }
    (fun h => absurd (hi.symm.trans h) Bool.false_ne_true) with ⟨t, ht, ht', hflags⟩ | ⟨hr, hr'⟩
  · rw [ht, ht']
    have hz := congrArg Flags.z hflags
    have hn := congrArg Flags.n hflags
    have hh := congrArg Flags.h hflags
    exact t.withFlags_of_sameButCarry _ hz hn hh
  · rw [hr, hr']
    exact ⟨rfl, rfl, rfl⟩

end Sys2Proof.Machine
end

section
/-! Instructions whose statements rest on decisions of the spec (spec/42_block0_16bit.md and
spec/45_block2_alu.md): NOP, the accesses through an `r16mem` operand, LD [imm16],SP and SBC. -/

namespace Sys2Proof.Machine

/-! ## Accesses through an `r16mem` operand (R75; D7) -/

/-- What stepping HL after an access changes, HL being at the access what it was in `s`. -/
theorem State.r16memPost_effect (s u : State) (m : R16Mem) (hhl : u.hl = s.hl) :
    (u.r16memPost m (s.r16memAddr m)).hl = hlAfter m s.hl ∧
    SameRegsBut m.cells u (u.r16memPost m (s.r16memAddr m)) ∧
    (u.r16memPost m (s.r16memAddr m)).flags = u.flags ∧
    (u.r16memPost m (s.r16memAddr m)).sp = u.sp := by
  cases m with
  | bc | de => exact ⟨hhl, fun _ _ => rfl, rfl, rfl⟩
  | hlInc =>
    exact ⟨u.getR16_setR16_self .hl (s.hl + 1) (by decide), u.setR16_sameRegsBut .hl (s.hl + 1),
      rfl, rfl⟩
  | hlDec =>
    exact ⟨u.getR16_setR16_self .hl (s.hl - 1) (by decide), u.setR16_sameRegsBut .hl (s.hl - 1),
      rfl, rfl⟩

theorem exec_ldR16memA (m : R16Mem) (s : State) :
    exec (.ldR16memA m) s =
      .next (((s.fetched 1).memWrite (s.r16memAddr m) s.a).r16memPost m (s.r16memAddr m)) := by
  rw [← s.fetched_r16memAddr 1 m]
  rfl

theorem exec_ldAR16mem (m : R16Mem) (s : State) :
    exec (.ldAR16mem m) s =
      .next (((s.after 1 [.read (s.r16memAddr m) (s.answer 1 (s.r16memAddr m))]).setR8 .a
        (s.answer 1 (s.r16memAddr m))).r16memPost m (s.r16memAddr m)) := by
  simp only [exec, execLdAR16mem, State.fetched_r16memAddr, State.memRead_fetched]

theorem a_notMem_r16mem_cells (m : R16Mem) : R8.a ∉ m.cells := by
  cases m <;> decide

/-! ## Two writes (R134) -/

/-- Two bytes written at different addresses are both read back. -/
theorem Memory.read_writeAll_pair (m : Memory) (a b : Word) (u v : Byte) (hm : m.wf = true)
    (hne : a.toNat ≠ b.toNat) :
    (m.writeAll [(a, u), (b, v)]).read a.toNat = u ∧
    (m.writeAll [(a, u), (b, v)]).read b.toNat = v :=
  ⟨(Memory.read_write_of_ne _ b.toNat a.toNat v hne).trans
      (Memory.read_write_self m 0 a.toNat u hm),
    Memory.read_write_self _ 0 b.toNat v (Memory.wf_write m a u hm)⟩

/-! ## The flags of a subtraction with a borrow (R101; D19) -/

theorem subC_flags (a b : Byte) (cin : Bool) :
    (subC a b cin).flags =
      { z := decide (((a.toNat : Int) - b.toNat - cin.toNat) % 256 = 0), n := true,
        h := decide (a.toNat % 16 < b.toNat % 16 + cin.toNat),
        c := decide (a.toNat < b.toNat + cin.toNat) } := by
  have hz : (subC a b cin).flags.z =
      decide (((a.toNat : Int) - b.toNat - cin.toNat) % 256 = 0) := by
    rw [Bool.eq_iff_iff, subC_flags_z_iff, decide_eq_true_iff, ← subC_result_toInt,
      Int.natCast_eq_zero]
    exact BitVec.toNat_inj.symm
  rw [← hz]
  rfl

/-! ## The statements -/

/-- Settles O23: the step takes one fetch and no more. -/
theorem nopOnlyAdvancesPc : Obligations.NopOnlyAdvancesPc := by
  unfold Obligations.NopOnlyAdvancesPc
  intro p s
  have hport := exec_portEffect (.nop p) s _ rfl
  have hopcode : opcodePQZ p 0 0 = BitVec.ofNat 8 (0x10 * p.toNat) :=
    (opcodePQZ_eq_ofNat p 0 0).trans (congrArg (BitVec.ofNat 8) (Nat.zero_add _))
  exact ⟨_, rfl, congrArg ([·]) hopcode, hport.took, fun r _ => s.fetched_getR8 1 r,
    s.fetched_flags 1, s.fetched_sp 1, hport.sameMem⟩

/-- Settles O25: the one data access is the write of A at the old pair, and HL steps after it. -/
theorem storeAThroughPair : Obligations.StoreAThroughPair := by
  unfold Obligations.StoreAThroughPair
  intro m s
  have hexec := exec_ldR16memA m s
  have hport : PortEffect 1 [] [(s.r16memAddr m, s.a)] s _ :=
    exec_portEffect (.ldR16memA m) s _ hexec
  obtain ⟨hhl, hregs, hflags, hsp⟩ :=
    s.r16memPost_effect ((s.fetched 1).memWrite (s.r16memAddr m) s.a) m (s.fetched_hl 1)
  refine ⟨_, hexec, congrArg ([·]) (opcodePQZ_eq_ofNat m.index 0 2), by cases m <;> rfl, hport.took,
    hport.read_written, hport.sameMemBut, hhl, fun r hr => ?_, hflags.trans (s.fetched_flags 1),
    hsp.trans (s.fetched_sp 1)⟩
  rw [hregs r hr, State.memWrite_getR8, State.fetched_getR8]

/-- Settles O26: the one data access is the read at the old pair into A, and HL steps after it. -/
theorem loadAThroughPair : Obligations.LoadAThroughPair := by
  unfold Obligations.LoadAThroughPair
  intro m s
  have hexec := exec_ldAR16mem m s
  have hport : PortEffect 1 [s.r16memAddr m] [] s _ := exec_portEffect (.ldAR16mem m) s _ hexec
  obtain ⟨hhl, hregs, hflags, hsp⟩ := s.r16memPost_effect
    ((s.after 1 [.read (s.r16memAddr m) (s.answer 1 (s.r16memAddr m))]).setR8 .a
      (s.answer 1 (s.r16memAddr m))) m rfl
  refine ⟨_, hexec, congrArg ([·]) (opcodePQZ_eq_ofNat m.index 1 2), by cases m <;> rfl, hport.took,
    hregs .a (a_notMem_r16mem_cells m), hhl, fun r hr => ?_, hflags, hsp, hport.sameMem⟩
  obtain ⟨ha, hcells⟩ : r ≠ .a ∧ r ∉ m.cells := by simpa using hr
  rw [hregs r hcells, State.getR8_setR8_of_ne _ _ _ _ ha, State.after_getR8]

/-- Settles O27: the two data accesses are the writes of the halves of SP, low byte first, at
addresses that differ even where the second wraps. -/
theorem storeSpAtImmediate : Obligations.StoreSpAtImmediate := by
  unfold Obligations.StoreSpAtImmediate
  intro nn s
  have hport : PortEffect 3 [] [(nn, loByte s.sp), (nn + 1, hiByte s.sp)] s _ :=
    exec_portEffect (.ldImm16SP nn) s _ rfl
  have hnext := word_add_one_toNat nn
  refine ⟨_, rfl, rfl, hport.took, fun hwf => ?_, hport.sameMemBut, fun r _ => ?_, ?_, ?_⟩
  · have := nn.isLt
    rw [hport.mem, ← hnext]
    exact Memory.read_writeAll_pair s.mem nn (nn + 1) _ _ hwf (by omega)
  · rw [State.memWrite16, State.memWrite_getR8, State.memWrite_getR8, State.fetched_getR8]
  · rw [State.memWrite16, State.memWrite_flags, State.memWrite_flags, State.fetched_flags]
  · rw [State.memWrite16_sp, State.fetched_sp]

/-- Settles O41: the step accumulates a difference, and its borrow-in is the old Carry. -/
theorem subtractOperandAndBorrowFromA : Obligations.SubtractOperandAndBorrowFromA := by
  unfold Obligations.SubtractOperandAndBorrowFromA
  intro o s v
  have hexec : exec (.sbcA o) s = .next (s.withAccumulated o (subC s.a v s.flags.c)) :=
    accumulate_eq subC o s
  exact ⟨_, hexec, congrArg ([·]) (opcodeXYZ_eq_ofNat 2 3 o.index), s.withAccumulated_took o _,
    subC_result_toInt s.a v s.flags.c, subC_flags s.a v s.flags.c, s.withAccumulated_frame o _⟩

end Sys2Proof.Machine
end
